-- ==== Sys2Proof/Word.lean ====
section
/-! DEFINITION. The words of the core: bytes, 16-bit words, immediates, register numbers (spec/00_scope.md R5 to R8). -/

namespace Sys2Proof

/-- A general register, a memory byte, a timer or the immediate `kk`: 8 bits, unsigned (R5, R7). -/
abbrev Byte := BitVec 8

/-- An instruction word, the program counter, the index register's storage or a stack entry: 16 bits (R5). -/
abbrev Word := BitVec 16

/-- The immediate address `nnn`: 12 bits (30_encoding.md R72). -/
abbrev Addr := BitVec 12

/-- The number of a general register, `V[0]` to `V[15]`; `V[15]` is `VF` (10_state.md R21, R22). -/
abbrev Reg := Fin 16

/-- The number of `VF`, the flag register (10_state.md R22). -/
abbrev flagReg : Reg := 15

/-- `zext_16` of a byte (00_scope.md R7). -/
def Byte.zext (b : Byte) : Word := b.zeroExtend 16

/-- `zext_16` of a 12-bit address (00_scope.md R7). -/
def Addr.zext (a : Addr) : Word := a.zeroExtend 16

end Sys2Proof
end

