-- ==== Sys2Proof/Syntax.lean ====
section
/-! DEFINITION. The 34 instructions, one constructor per row of spec/opcode_table.json, in the order of 30_encoding.md R90. -/

namespace Sys2Proof

/-- An instruction with its operand fields (30_encoding.md R72). `x` and `y` are register numbers, `kk` a byte, `nnn` a
12-bit address, `n` a count of sprite rows, a natural number whose range is checked in WellFormed.lean. -/
inductive Instr where
  /-- `00E0` CLS (R190). -/
  | cls
  /-- `00EE` RET (R101). -/
  | ret
  /-- `1nnn` JP nnn (R102). -/
  | jp (nnn : Addr)
  /-- `2nnn` CALL nnn (R103). -/
  | call (nnn : Addr)
  /-- `3xkk` SE Vx, kk (R104). -/
  | seImm (x : Reg) (kk : Byte)
  /-- `4xkk` SNE Vx, kk (R105). -/
  | sneImm (x : Reg) (kk : Byte)
  /-- `5xy0` SE Vx, Vy (R106). -/
  | seReg (x y : Reg)
  /-- `9xy0` SNE Vx, Vy (R107). -/
  | sneReg (x y : Reg)
  /-- `6xkk` LD Vx, kk (R132). -/
  | ldImm (x : Reg) (kk : Byte)
  /-- `7xkk` ADD Vx, kk (R133). -/
  | addImm (x : Reg) (kk : Byte)
  /-- `8xy0` LD Vx, Vy (R134). -/
  | ldReg (x y : Reg)
  /-- `8xy1` OR Vx, Vy (R135). -/
  | orReg (x y : Reg)
  /-- `8xy2` AND Vx, Vy (R136). -/
  | andReg (x y : Reg)
  /-- `8xy3` XOR Vx, Vy (R137). -/
  | xorReg (x y : Reg)
  /-- `8xy4` ADD Vx, Vy (R138). -/
  | addReg (x y : Reg)
  /-- `8xy5` SUB Vx, Vy (R139). -/
  | sub (x y : Reg)
  /-- `8xy6` SHR Vx, Vy (R140); `y` is encoded but not read. -/
  | shr (x y : Reg)
  /-- `8xy7` SUBN Vx, Vy (R141). -/
  | subn (x y : Reg)
  /-- `8xyE` SHL Vx, Vy (R142); `y` is encoded but not read. -/
  | shl (x y : Reg)
  /-- `Annn` LD I, nnn (R160). -/
  | ldI (nnn : Addr)
  /-- `Bnnn` JP V0, nnn (R108). -/
  | jpV0 (nnn : Addr)
  /-- `Cxkk` RND Vx, kk (R143). -/
  | rnd (x : Reg) (kk : Byte)
  /-- `Dxyn` DRW Vx, Vy, n (R193). -/
  | drw (x y : Reg) (n : Nat)
  /-- `Ex9E` SKP Vx (R220). -/
  | skp (x : Reg)
  /-- `ExA1` SKNP Vx (R221). -/
  | sknp (x : Reg)
  /-- `Fx07` LD Vx, DT (R223). -/
  | ldVxDt (x : Reg)
  /-- `Fx0A` LD Vx, K (R224). -/
  | ldVxK (x : Reg)
  /-- `Fx15` LD DT, Vx (R225). -/
  | ldDtVx (x : Reg)
  /-- `Fx18` LD ST, Vx (R226). -/
  | ldStVx (x : Reg)
  /-- `Fx1E` ADD I, Vx (R161). -/
  | addIVx (x : Reg)
  /-- `Fx29` LD F, Vx (R162). -/
  | ldFVx (x : Reg)
  /-- `Fx33` LD B, Vx (R163). -/
  | ldBVx (x : Reg)
  /-- `Fx55` LD [I], Vx (R164). -/
  | ldMiVx (x : Reg)
  /-- `Fx65` LD Vx, [I] (R165). -/
  | ldVxMi (x : Reg)
  deriving DecidableEq, Repr

end Sys2Proof
end

