-- ==== Sys2Proof/WellFormed.lean ====
section
/-! DEFINITION. The check an instruction passes before it can be encoded. Register numbers, `kk` and `nnn` are in range by
their types; the one field with a check is the sprite height `n`, a 4-bit field `0..15` (spec/30_encoding.md R72,
43_display.md R198). -/

namespace Sys2Proof

/-- `n` fits its 4-bit field; every other field is in range by its type (R72). -/
def Instr.wf : Instr → Bool
  | .drw _ _ n => decide (n ≤ 15)
  | .cls | .ret => true
  | .jp _ | .call _ | .ldI _ | .jpV0 _ => true
  | .seImm _ _ | .sneImm _ _ | .ldImm _ _ | .addImm _ _ | .rnd _ _ => true
  | .seReg _ _ | .sneReg _ _ | .ldReg _ _ | .orReg _ _ | .andReg _ _ | .xorReg _ _ => true
  | .addReg _ _ | .sub _ _ | .shr _ _ | .subn _ _ | .shl _ _ => true
  | .skp _ | .sknp _ | .ldVxDt _ | .ldVxK _ | .ldDtVx _ | .ldStVx _ => true
  | .addIVx _ | .ldFVx _ | .ldBVx _ | .ldMiVx _ | .ldVxMi _ => true

end Sys2Proof
end

