-- ==== Sys2Proof/Decode.lean ====
section
/-! DEFINITION. The decoder, the encoder and the opcode table (spec/30_encoding.md R71 to R81, opcode_table.json). -/

namespace Sys2Proof

/-! ## Fields (R71, R72) -/

/-- `op = w[15:12]`, the family. -/
def opField (w : Word) : BitVec 4 := w.extractLsb' 12 4
/-- The field `w[11:8]`. -/
def xField (w : Word) : BitVec 4 := w.extractLsb' 8 4
/-- The field `w[7:4]`. -/
def yField (w : Word) : BitVec 4 := w.extractLsb' 4 4
/-- The field `w[3:0]`: the sprite height of family `D`, the function selector of families `5`, `8`, `9`. -/
def nField (w : Word) : BitVec 4 := w.extractLsb' 0 4
/-- The low byte `w[7:0]`: `kk`, or the secondary key of families `0`, `E`, `F`. -/
def kkField (w : Word) : Byte := w.extractLsb' 0 8
/-- `nnn = w[11:0]`. -/
def nnnField (w : Word) : Addr := w.extractLsb' 0 12

/-- A 4-bit field as a register number (R72). -/
def regOf (f : BitVec 4) : Reg := f.toFin

/-! ## The decoder -/

/-- Family `0`, selected by its low byte; bits 11:8 are not read (R75). -/
def decode0 (w : Word) : Option Instr :=
  if kkField w = 0xE0 then some .cls
  else if kkField w = 0xEE then some .ret
  else none

/-- Family `8`, selected by its low nibble (R77). -/
def decode8 (w : Word) : Option Instr :=
  let x := regOf (xField w)
  let y := regOf (yField w)
  let f := nField w
  if f = 0x0 then some (.ldReg x y)
  else if f = 0x1 then some (.orReg x y)
  else if f = 0x2 then some (.andReg x y)
  else if f = 0x3 then some (.xorReg x y)
  else if f = 0x4 then some (.addReg x y)
  else if f = 0x5 then some (.sub x y)
  else if f = 0x6 then some (.shr x y)
  else if f = 0x7 then some (.subn x y)
  else if f = 0xE then some (.shl x y)
  else none

/-- Family `E`, selected by its low byte (R78). -/
def decodeE (w : Word) : Option Instr :=
  let x := regOf (xField w)
  if kkField w = 0x9E then some (.skp x)
  else if kkField w = 0xA1 then some (.sknp x)
  else none

/-- Family `F`, selected by its low byte (R79). -/
def decodeF (w : Word) : Option Instr :=
  let x := regOf (xField w)
  let k := kkField w
  if k = 0x07 then some (.ldVxDt x)
  else if k = 0x0A then some (.ldVxK x)
  else if k = 0x15 then some (.ldDtVx x)
  else if k = 0x18 then some (.ldStVx x)
  else if k = 0x1E then some (.addIVx x)
  else if k = 0x29 then some (.ldFVx x)
  else if k = 0x33 then some (.ldBVx x)
  else if k = 0x55 then some (.ldMiVx x)
  else if k = 0x65 then some (.ldVxMi x)
  else none

/-- `Decode` of R70: the primary key is the top nibble (R74 to R79). `none` is the unknown-instruction error, for every word
that no rule selects (R80). A function of the word alone (R83). -/
def decode (w : Word) : Option Instr :=
  let x := regOf (xField w)
  let y := regOf (yField w)
  let op := opField w
  if op = 0x0 then decode0 w
  else if op = 0x1 then some (.jp (nnnField w))
  else if op = 0x2 then some (.call (nnnField w))
  else if op = 0x3 then some (.seImm x (kkField w))
  else if op = 0x4 then some (.sneImm x (kkField w))
  else if op = 0x5 then (if nField w = 0 then some (.seReg x y) else none)
  else if op = 0x6 then some (.ldImm x (kkField w))
  else if op = 0x7 then some (.addImm x (kkField w))
  else if op = 0x8 then decode8 w
  else if op = 0x9 then (if nField w = 0 then some (.sneReg x y) else none)
  else if op = 0xA then some (.ldI (nnnField w))
  else if op = 0xB then some (.jpV0 (nnnField w))
  else if op = 0xC then some (.rnd x (kkField w))
  else if op = 0xD then some (.drw x y (nField w).toNat)
  else if op = 0xE then decodeE w
  else decodeF w

/-! ## Bytes -/

/-- The word of two bytes, big-endian: the byte at the lower address is bits 15:8 (20_memory.md R52). -/
def wordOfBytes (hi lo : Byte) : Word := hi ++ lo
/-- The byte stored at the lower address (R52). -/
def highByte (w : Word) : Byte := w.extractLsb' 8 8
/-- The byte stored at the next address (R52). -/
def lowByte (w : Word) : Byte := w.extractLsb' 0 8

/-- Why bytes are rejected. -/
inductive Rejection where
  /-- Fewer than the two bytes of an instruction (R71). -/
  | truncated
  /-- The word is none of the 34 instructions (R80). -/
  | unknownInstruction (w : Word)
  deriving DecidableEq, Repr

/-- The decoder on any bytes: an instruction is always exactly two bytes (R71); answers it with the bytes after it. -/
def decodeBytes : List Byte → Except Rejection (Instr × List Byte)
  | hi :: lo :: rest =>
    match decode (wordOfBytes hi lo) with
    | some i => .ok (i, rest)
    | none => .error (.unknownInstruction (wordOfBytes hi lo))
  | _ => .error .truncated

/-- The instruction the decoder reads from a table word: `w` cut to `nbits` bits, laid out as two big-endian bytes. -/
def decodeTableWord (nbits w : Nat) : Option Instr :=
  let word : Word := BitVec.ofNat 16 (w % 2 ^ nbits)
  match decodeBytes [highByte word, lowByte word] with
  | .ok (i, _) => some i
  | .error _ => none

/-! ## The encoder -/

/-- A register number as a 4-bit field. -/
def regBits (r : Reg) : BitVec 4 := BitVec.ofFin r

/-- Format `F-NNN` (R71). -/
def fmtNNN (op : BitVec 4) (nnn : Addr) : Word := op ++ nnn
/-- Formats `F-XKK` and `F-XSUB` (R71). -/
def fmtXKK (op : BitVec 4) (x : Reg) (kk : Byte) : Word := op ++ (regBits x ++ kk)
/-- Format `F-XYN` (R71). -/
def fmtXYN (op : BitVec 4) (x y : Reg) (n : BitVec 4) : Word := op ++ (regBits x ++ (regBits y ++ n))

/-- The word of an instruction, from the patterns of opcode_table.json. The unread bits 11:8 of family `0` are written 0. -/
def encode : Instr → Word
  | .cls => 0x00E0
  | .ret => 0x00EE
  | .jp nnn => fmtNNN 0x1 nnn
  | .call nnn => fmtNNN 0x2 nnn
  | .seImm x kk => fmtXKK 0x3 x kk
  | .sneImm x kk => fmtXKK 0x4 x kk
  | .seReg x y => fmtXYN 0x5 x y 0x0
  | .sneReg x y => fmtXYN 0x9 x y 0x0
  | .ldImm x kk => fmtXKK 0x6 x kk
  | .addImm x kk => fmtXKK 0x7 x kk
  | .ldReg x y => fmtXYN 0x8 x y 0x0
  | .orReg x y => fmtXYN 0x8 x y 0x1
  | .andReg x y => fmtXYN 0x8 x y 0x2
  | .xorReg x y => fmtXYN 0x8 x y 0x3
  | .addReg x y => fmtXYN 0x8 x y 0x4
  | .sub x y => fmtXYN 0x8 x y 0x5
  | .shr x y => fmtXYN 0x8 x y 0x6
  | .subn x y => fmtXYN 0x8 x y 0x7
  | .shl x y => fmtXYN 0x8 x y 0xE
  | .ldI nnn => fmtNNN 0xA nnn
  | .jpV0 nnn => fmtNNN 0xB nnn
  | .rnd x kk => fmtXKK 0xC x kk
  | .drw x y n => fmtXYN 0xD x y (BitVec.ofNat 4 n)
  | .skp x => fmtXKK 0xE x 0x9E
  | .sknp x => fmtXKK 0xE x 0xA1
  | .ldVxDt x => fmtXKK 0xF x 0x07
  | .ldVxK x => fmtXKK 0xF x 0x0A
  | .ldDtVx x => fmtXKK 0xF x 0x15
  | .ldStVx x => fmtXKK 0xF x 0x18
  | .addIVx x => fmtXKK 0xF x 0x1E
  | .ldFVx x => fmtXKK 0xF x 0x29
  | .ldBVx x => fmtXKK 0xF x 0x33
  | .ldMiVx x => fmtXKK 0xF x 0x55
  | .ldVxMi x => fmtXKK 0xF x 0x65

/-- The two bytes of an instruction, in memory order (R52). -/
def encodeBytes (i : Instr) : List Byte := [highByte (encode i), lowByte (encode i)]

/-! ## The opcode table (opcode_table.json) -/

/-- One row of opcode_table.json. -/
structure OpcodeRow where
  mnemonic : String
  mask : Word
  pattern : Word
  deriving DecidableEq, Repr

/-- A word is in a row: `(w & mask) = match` (R81). -/
def OpcodeRow.holds (r : OpcodeRow) (w : Word) : Bool := w &&& r.mask == r.pattern

/-- The 34 rows of opcode_table.json, in its order. -/
def opcodeTable : List OpcodeRow :=
  [⟨"CLS", 0xF0FF, 0x00E0⟩,
   ⟨"RET", 0xF0FF, 0x00EE⟩,
   ⟨"JP", 0xF000, 0x1000⟩,
   ⟨"CALL", 0xF000, 0x2000⟩,
   ⟨"SE_IMM", 0xF000, 0x3000⟩,
   ⟨"SNE_IMM", 0xF000, 0x4000⟩,
   ⟨"SE_REG", 0xF00F, 0x5000⟩,
   ⟨"SNE_REG", 0xF00F, 0x9000⟩,
   ⟨"LD_IMM", 0xF000, 0x6000⟩] ++
  [⟨"ADD_IMM", 0xF000, 0x7000⟩,
   ⟨"LD_REG", 0xF00F, 0x8000⟩,
   ⟨"OR", 0xF00F, 0x8001⟩,
   ⟨"AND", 0xF00F, 0x8002⟩,
   ⟨"XOR", 0xF00F, 0x8003⟩,
   ⟨"ADD_REG", 0xF00F, 0x8004⟩,
   ⟨"SUB", 0xF00F, 0x8005⟩,
   ⟨"SHR", 0xF00F, 0x8006⟩,
   ⟨"SUBN", 0xF00F, 0x8007⟩] ++
  [⟨"SHL", 0xF00F, 0x800E⟩,
   ⟨"LD_I", 0xF000, 0xA000⟩,
   ⟨"JP_V0", 0xF000, 0xB000⟩,
   ⟨"RND", 0xF000, 0xC000⟩,
   ⟨"DRW", 0xF000, 0xD000⟩,
   ⟨"SKP", 0xF0FF, 0xE09E⟩,
   ⟨"SKNP", 0xF0FF, 0xE0A1⟩,
   ⟨"LD_VX_DT", 0xF0FF, 0xF007⟩,
   ⟨"LD_VX_K", 0xF0FF, 0xF00A⟩] ++
  [⟨"LD_DT_VX", 0xF0FF, 0xF015⟩,
   ⟨"LD_ST_VX", 0xF0FF, 0xF018⟩,
   ⟨"ADD_I_VX", 0xF0FF, 0xF01E⟩,
   ⟨"LD_F_VX", 0xF0FF, 0xF029⟩,
   ⟨"LD_B_VX", 0xF0FF, 0xF033⟩,
   ⟨"LD_MI_VX", 0xF0FF, 0xF055⟩,
   ⟨"LD_VX_MI", 0xF0FF, 0xF065⟩]

/-- The mnemonic of each instruction in opcode_table.json. -/
def Instr.mnemonic : Instr → String
  | .cls => "CLS"
  | .ret => "RET"
  | .jp _ => "JP"
  | .call _ => "CALL"
  | .seImm _ _ => "SE_IMM"
  | .sneImm _ _ => "SNE_IMM"
  | .seReg _ _ => "SE_REG"
  | .sneReg _ _ => "SNE_REG"
  | .ldImm _ _ => "LD_IMM"
  | .addImm _ _ => "ADD_IMM"
  | .ldReg _ _ => "LD_REG"
  | .orReg _ _ => "OR"
  | .andReg _ _ => "AND"
  | .xorReg _ _ => "XOR"
  | .addReg _ _ => "ADD_REG"
  | .sub _ _ => "SUB"
  | .shr _ _ => "SHR"
  | .subn _ _ => "SUBN"
  | .shl _ _ => "SHL"
  | .ldI _ => "LD_I"
  | .jpV0 _ => "JP_V0"
  | .rnd _ _ => "RND"
  | .drw _ _ _ => "DRW"
  | .skp _ => "SKP"
  | .sknp _ => "SKNP"
  | .ldVxDt _ => "LD_VX_DT"
  | .ldVxK _ => "LD_VX_K"
  | .ldDtVx _ => "LD_DT_VX"
  | .ldStVx _ => "LD_ST_VX"
  | .addIVx _ => "ADD_I_VX"
  | .ldFVx _ => "LD_F_VX"
  | .ldBVx _ => "LD_B_VX"
  | .ldMiVx _ => "LD_MI_VX"
  | .ldVxMi _ => "LD_VX_MI"

end Sys2Proof
end

