-- ==== Sys2Proof/Config.lean ====
section
/-! DEFINITION. What one implementation fixes, and the free values (spec/00_scope.md R5, 93_implementation_defined.md).
The parameter `SUB_MODE` has its type here and this hardware's value beside the operation that reads it (`Machine.subMode` in
Machine/Flags.lean). `FONT` and `RESET_FILL` are arguments of a reset (`Machine.ResetRequest`). -/

namespace Sys2Proof.Config

/-- The two results `8xy5` and `8xy7` can have, parameter `SUB_MODE` (41_alu.md R131): the absolute difference, or the
two's-complement subtraction the document calls canonical. -/
inductive SubMode where
  | abs
  | wrap
  deriving DecidableEq, Repr

/-- `MEM_SIZE` (R5). -/
abbrev memSize : Nat := 4096
/-- The last byte address, `0xFFF` (R5, 20_memory.md R50). -/
abbrev lastAddr : Nat := 0xFFF
/-- `PROGRAM_BASE` (R5). -/
abbrev programBase : Nat := 0x200
/-- `MAX_IMAGE`, the longest program image that fits (R5, 70_reset_and_hazards.md R293). -/
abbrev maxImage : Nat := 3584
/-- `GLYPH_BYTES` (R5). -/
abbrev glyphBytes : Nat := 5
/-- `FONT_BASE` (R5). -/
abbrev fontBase : Nat := 0x000
/-- The length of `FONT`, 16 glyphs of 5 bytes at `0x000..0x04F` (R5). -/
abbrev fontBytes : Nat := 80
/-- `DISPLAY_W` (R5). -/
abbrev displayW : Nat := 64
/-- `DISPLAY_H` (R5). -/
abbrev displayH : Nat := 32
/-- `TIMER_HZ`, decrements per second (R5). -/
abbrev timerHz : Nat := 60

/-- Free value (log 2): the draw `TICKS` of the cycle numbered by the argument, when `State.inputs` names none. "A model
without a clock takes `k` as a free natural number per cycle" (60_exceptions.md R265). No body: nothing can be proved of it. -/
opaque freeTicks : Nat → Nat

/-- Free value (log 2): the draw `RNG` of the cycle numbered by the argument, when `State.inputs` names none (41_alu.md R143,
60_exceptions.md R275). No body: nothing can be proved of it. -/
opaque freeRandom : Nat → Byte

/-- Open parameter `IPS`, the host's target instruction rate (R5; log 9). No rule depends on it and nothing reads it. -/
opaque ips : Nat

end Sys2Proof.Config
end

