-- ==== Sys2Proof/Machine/State.lean ====
section
/-! DEFINITION. The state of the core as plain data, its errors, and its value after reset (spec/10_state.md R20 to R37). -/

namespace Sys2Proof.Machine

/-- Memory: the bytes that differ from what an unlisted address reads as (`Memory.initial`, Machine/Ops.lean), in strictly
rising address order. `Memory.wf` says the form holds. -/
abbrev Memory := List Host.Cell

/-- The six errors (60_exceptions.md R251). -/
inductive ErrorKind where
  /-- Code 1: the word matches no row of the opcode table (30_encoding.md R80). -/
  | unknownInstruction
  /-- Code 2: `OutOfRange(FETCH)`, `pc > 0xFFE` at the fetch (R70). -/
  | fetch
  /-- Code 3: `OutOfRange(STACK_OVERFLOW)`, `2nnn` with `SP = 16` (40_flow.md R103). -/
  | stackOverflow
  /-- Code 4: `OutOfRange(STACK_UNDERFLOW)`, `00EE` with `SP = 0` (40_flow.md R101). -/
  | stackUnderflow
  /-- Code 5: `OutOfRange(MEMORY)`, a data access past `0xFFF` (20_memory.md R55). -/
  | memory
  /-- Code 6: `OutOfRange(KEY_INDEX)`, `Ex9E` or `ExA1` with `V[x] > 0xF` (44_keys_timers.md R222). -/
  | keyIndex
  deriving DecidableEq, Repr

/-- The contents of `FAULT` after an error: `{ code, info, pc, OPC }` (60_exceptions.md R253); `ErrorKind.code` numbers the
kinds. -/
structure FaultRecord where
  error : ErrorKind
  info : Word
  pc : Word
  opc : Word
  deriving DecidableEq, Repr

/-- A value of the parameter `FONT`: 80 glyph bytes, glyph `d` at `d * 5` (00_scope.md R5, 10_state.md R33). -/
abbrev Font := Vector Byte Config.fontBytes

/-- A reset the host asks for (60_exceptions.md R276, 70_reset_and_hazards.md R290): the implementation's parameters `FONT`
(log 6) and `RESET_FILL`, and the program image. `RESET_FILL` is a list of cells; a byte that `fill` does not list is filled
as `Memory.initial` says (log 4, log 5). -/
structure ResetRequest where
  font : Font
  fill : List Host.Cell
  image : List Byte
  deriving DecidableEq, Repr

/-- What the host supplies before one cycle (60_exceptions.md R270): a reset or none, a write of the sixteen key flags or
none (R271), the elapsed-window count `TICKS` (R265) and the random byte `RNG` (R275). -/
structure HostInput where
  reset : Option ResetRequest
  keys : Option Word
  ticks : Nat
  rng : Byte
  deriving DecidableEq, Repr

/-- Everything that persists from one cycle to the next (10_state.md R20), in the spec's names, and the inputs of the
cycle. -/
structure State where
  /-- `V[0]..V[15]`, 8 bits each (R21). -/
  V : Vector Byte 16
  /-- The index register: 16 bits of storage, a 12-bit value (R25). -/
  I : Word
  /-- The program counter (R23). -/
  pc : Word
  /-- The call stack's sixteen 16-bit entries (R26). -/
  S : Vector Word 16
  /-- How many entries of `S` are occupied, `0..16` (R26). -/
  SP : Fin 17
  /-- The delay timer (R27). -/
  DT : Byte
  /-- The sound timer (R28). -/
  ST : Byte
  /-- `MEM`, 4096 bytes (R32). -/
  mem : Memory
  /-- The framebuffer: 32 rows of 64 pixels; bit `x` of row `y` is `FB[x, y]` (R29). -/
  FB : Vector (BitVec 64) 32
  /-- The key flags; bit `k` is `KEY[k]` (R30). -/
  KEY : Word
  /-- The opcode register (R31). -/
  OPC : Word
  /-- An `Fx0A` at `pc` is holding (R34). -/
  WAIT : Bool
  /-- The key flags the last holding cycle saw (R34). -/
  KSNAP : Word
  /-- The Timing Driver's reference time, in 1/60 s windows applied since the host time at reset (R34; log 8). -/
  TREF : Nat
  /-- The error record; `none` while the core runs (R34). -/
  FAULT : Option FaultRecord
  /-- The model's own: the window count of the cycle now running, draw `TICKS` (00_scope.md R5; log 2). -/
  TICKS : Nat
  /-- The model's own: the random byte of the cycle now running, draw `RNG` (00_scope.md R5; log 2). -/
  RNG : Byte
  /-- The model's own: what the host will supply before each coming cycle, the next first (60_exceptions.md R270; log 2 to 4). -/
  inputs : List HostInput
  /-- The model's own: how many cycles have taken their inputs; it numbers the free draws (log 2). -/
  cycles : Nat
  deriving DecidableEq, Repr

/-- Why the machine stops. -/
inductive Fault where
  /-- Raised by a step from a halted state, one whose `FAULT` holds `r`, when the host's next input is not a reset: "the core
  is halted ... no further cycle runs" and "a model should treat the halted state as a fault" (60_exceptions.md R254).
  Safe: the hardware stops too (log 1). -/
  | halted (r : FaultRecord)
  deriving DecidableEq, Repr

/-- Why the model gives an instruction no meaning. -/
inductive Refusal where
  /-- An instruction the model does not model yet. Safe: the model stops where the hardware goes on. Every instruction has
  its meaning, so nothing raises it. -/
  | notModelled (mnemonic : String)
  deriving DecidableEq, Repr

/-- What one instruction or one step ends in. -/
abbrev Result := Host.Outcome State Fault Refusal

/-- The machine right after a reset with the empty program image (10_state.md R37, 70_reset_and_hazards.md R290). Memory
lists nothing: the default `FONT` (log 6), and `RESET_FILL` (log 5) elsewhere; `State.resetWith` (Machine/Ops.lean) takes both
as arguments. The last four fields are the model's own (log 2). -/
def State.reset : State where
  V := Vector.replicate 16 0
  I := 0
  pc := 0x200
  S := Vector.replicate 16 0
  SP := 0
  DT := 0
  ST := 0
  mem := []
  FB := Vector.replicate 32 0
  KEY := 0
  OPC := 0
  WAIT := false
  KSNAP := 0
  TREF := 0
  FAULT := none
  TICKS := 0
  RNG := 0
  inputs := []
  cycles := 0

end Sys2Proof.Machine
end

