-- ==== Sys2Proof/Machine/Ops.lean ====
section
/-! DEFINITION. The named operations over registers, stack, memory and the program counter, taking an error, and reset
(spec/10_state.md, 20_memory.md, 60_exceptions.md, 70_reset_and_hazards.md). -/

namespace Sys2Proof.Machine

/-! ## General registers (10_state.md R21, R22) -/

/-- Read `V[x]`. -/
def State.reg (s : State) (x : Reg) : Byte := s.V[x]

/-- `V[x] <- v`. -/
def State.setReg (s : State) (x : Reg) (v : Byte) : State := { s with V := s.V.set x v }

/-- Write `VF` as a flag (R22). -/
def State.setFlag (s : State) (v : Byte) : State := s.setReg flagReg v

/-! ## The program counter (R23) -/

/-- The ordinary advance, `pc <- pc + 2`. -/
def State.advance (s : State) : State := { s with pc := s.pc + 2 }

/-- A skip: `pc <- pc + 4` when taken, `pc <- pc + 2` otherwise. -/
def State.skipIf (s : State) (taken : Bool) : State := { s with pc := s.pc + if taken then 4 else 2 }

/-- The direct write of a jump, call or return, with no further advance. -/
def State.jump (s : State) (target : Word) : State := { s with pc := target }

/-! ## The index register (R25) -/

/-- `I <- v`. -/
def State.setIndex (s : State) (v : Word) : State := { s with I := v }

/-! ## Errors (60_exceptions.md R251 to R256) -/

/-- The code of an error (R251). -/
def ErrorKind.code : ErrorKind → Nat
  | .unknownInstruction => 1
  | .fetch => 2
  | .stackOverflow => 3
  | .stackUnderflow => 4
  | .memory => 5
  | .keyIndex => 6

/-- Taking an error: `FAULT <- { code, info, pc, OPC }` with the instruction address, and nothing else changes (R253). The
core is then halted (R254); there is no vector, no handler and no return (R255). -/
def State.raise (s : State) (error : ErrorKind) (info : Word) : State :=
  { s with FAULT := some { error := error, info := info, pc := s.pc, opc := s.OPC } }

/-! ## The call stack (R26) -/

/-- Push `v` and jump, or `OutOfRange(STACK_OVERFLOW)` with `info` when all sixteen entries are occupied. -/
def State.pushJump (s : State) (v target info : Word) : State :=
  if h : s.SP.val < 16 then
    ({ s with S := s.S.set s.SP.val v h, SP := ⟨s.SP.val + 1, by omega⟩ } : State).jump target
  else s.raise .stackOverflow info

/-- Pop into `pc`, or `OutOfRange(STACK_UNDERFLOW)` when the stack is empty. The popped entry keeps its value in `S`. -/
def State.popJump (s : State) : State :=
  if h : 0 < s.SP.val then
    ({ s with SP := ⟨s.SP.val - 1, by omega⟩ } : State).jump (s.S[s.SP.val - 1]'(by omega))
  else s.raise .stackUnderflow 0

/-! ## Memory (20_memory.md R50 to R58) -/

/-- The default of the parameter `FONT`, 5 bytes a digit: the table of 10_state.md R33, which is the spec's general knowledge
(log 6). -/
def defaultGlyphs : List Byte :=
  [0xF0, 0x90, 0x90, 0x90, 0xF0] ++ [0x20, 0x60, 0x20, 0x20, 0x70] ++
  [0xF0, 0x10, 0xF0, 0x80, 0xF0] ++ [0xF0, 0x10, 0xF0, 0x10, 0xF0] ++
  [0x90, 0x90, 0xF0, 0x10, 0x10] ++ [0xF0, 0x80, 0xF0, 0x10, 0xF0] ++
  [0xF0, 0x80, 0xF0, 0x90, 0xF0] ++ [0xF0, 0x10, 0x20, 0x40, 0x40] ++
  [0xF0, 0x90, 0xF0, 0x90, 0xF0] ++ [0xF0, 0x90, 0xF0, 0x10, 0xF0] ++
  [0xF0, 0x90, 0xF0, 0x90, 0x90] ++ [0xE0, 0x90, 0xE0, 0x90, 0xE0] ++
  [0xF0, 0x80, 0x80, 0x80, 0xF0] ++ [0xE0, 0x90, 0x90, 0x90, 0xE0] ++
  [0xF0, 0x80, 0xF0, 0x80, 0xF0] ++ [0xF0, 0x80, 0xF0, 0x80, 0x80]

/-- The default as a value of the parameter `FONT`. -/
def defaultFont : Font := ⟨defaultGlyphs.toArray, rfl⟩

/-- What `RESET_FILL` leaves in a byte that nothing names: DESIGN CHOICE, unsafe (log 5). -/
def resetFill : Byte := 0x00

/-- What an unlisted address reads as: its contents in `State.reset`, the default font or `RESET_FILL` (10_state.md R37). Under
another `FONT` or fill the bytes that differ are listed. -/
def Memory.initial (a : Nat) : Byte := if a < Config.fontBytes then defaultGlyphs.getD a 0 else resetFill

/-- The byte at `a` (R51, R56). -/
def Memory.read : Memory → Nat → Byte
  | [], a => Memory.initial a
  | (b, v) :: m, a => if b = a then v else Memory.read m a

/-- Put a byte in front of the cells of higher addresses, unless it is what the address reads as anyway. -/
def Memory.put (m : Memory) (a : Nat) (v : Byte) : Memory := if v = Memory.initial a then m else (a, v) :: m

/-- `MEM[a] <- v` (R51, R56), keeping the canonical form. -/
def Memory.write : Memory → Nat → Byte → Memory
  | [], a, v => Memory.put [] a v
  | (b, u) :: m, a, v =>
    if a < b then Memory.put ((b, u) :: m) a v
    else if a = b then Memory.put m a v
    else (b, u) :: Memory.write m a v

/-- The bytes at `a`, `a + 1`, …, `n` of them. -/
def Memory.readBytes (m : Memory) (a n : Nat) : List Byte := (List.range n).map fun r => m.read (a + r)

/-- Store bytes at `a`, `a + 1`, … in that order. -/
def Memory.storeBytes : Memory → Nat → List Byte → Memory
  | m, _, [] => m
  | m, a, v :: vs => Memory.storeBytes (m.write a v) (a + 1) vs

/-- The canonical form from address `lo` up: addresses strictly rising and inside the 4096-byte space, no cell equal to what
its address reads as unlisted. -/
def Memory.wfFrom : Nat → Memory → Bool
  | _, [] => true
  | lo, (a, v) :: m =>
    decide (lo ≤ a) && decide (a ≤ Config.lastAddr) && decide (v ≠ Memory.initial a) && Memory.wfFrom (a + 1) m

/-- The canonical form of a memory. -/
def Memory.wf (m : Memory) : Bool := Memory.wfFrom 0 m

/-! ## Fetch (30_encoding.md R70, 20_memory.md R52) -/

/-- The word at `pc`, `pc + 1`, big-endian. -/
def State.fetchWord (s : State) : Word :=
  wordOfBytes (s.mem.read s.pc.toNat) (s.mem.read (s.pc.toNat + 1))

/-- Store a word at `a`, `a + 1`, big-endian. -/
def Memory.storeWord (m : Memory) (a : Nat) (w : Word) : Memory := m.storeBytes a [highByte w, lowByte w]

/-! ## Reset (70_reset_and_hazards.md R290, R293) -/

/-- Write `RESET_FILL` cells; a cell outside memory is passed over. -/
def Memory.fillCells : Memory → List Host.Cell → Memory
  | m, [] => m
  | m, (a, v) :: cs => Memory.fillCells (if a ≤ Config.lastAddr then m.write a v else m) cs

/-- Memory after a reset, in the order of R290: `RESET_FILL`, over it `FONT` at `0x000`, and the image at `0x200` cut to 3584
bytes. -/
def resetMemory (r : ResetRequest) : Memory :=
  ((Memory.fillCells [] r.fill).storeBytes Config.fontBase r.font.toList).storeBytes Config.programBase
    (r.image.take Config.maxImage)

/-- The machine right after a reset with any `FONT`, `RESET_FILL` and image (10_state.md R37). -/
def State.resetWith (r : ResetRequest) : State := { State.reset with mem := resetMemory r }

/-- The host's reset: every piece of the spec's state at its reset value, whatever it was, `FAULT` and a wait included (R290,
60_exceptions.md R254, R276). The model's own fields go on. -/
def State.hostReset (s : State) (r : ResetRequest) : State :=
  { State.resetWith r with TICKS := s.TICKS, RNG := s.RNG, inputs := s.inputs, cycles := s.cycles }

end Sys2Proof.Machine
end

