-- ==== Sys2Proof/Machine/Operands.lean ====
section
/-! DEFINITION. The operand forms: immediates, index-relative addresses and their range check, key numbers, decimal digits,
sprite origins (spec/30_encoding.md R73, 42_index_memory.md R166). -/

namespace Sys2Proof.Machine

/-- An immediate address written to `pc` or `I`: unsigned and unscaled (R73). -/
def immAddr (nnn : Addr) : Word := nnn.zext

/-- The target of `Bnnn`, `(V[0] + nnn) mod 4096` (40_flow.md R108). -/
def offsetTarget (v0 : Byte) (nnn : Addr) : Word := BitVec.ofNat 16 ((v0.toNat + nnn.toNat) % Config.memSize)

/-- The exact sum of `Fx1E`, before masking (42_index_memory.md R161). -/
def indexSum (i : Word) (v : Byte) : Nat := i.toNat + v.toNat

/-- The value `Fx1E` leaves in `I`, the sum `mod 4096` (R161). -/
def indexSumMasked (i : Word) (v : Byte) : Word := BitVec.ofNat 16 (indexSum i v % Config.memSize)

/-- The address of the glyph of digit `v`, the whole byte times 5 (42_index_memory.md R162). -/
def glyphAddr (v : Byte) : Word := BitVec.ofNat 16 (v.toNat * Config.glyphBytes)

/-- The three decimal digits of a byte, most significant first (42_index_memory.md R163). -/
def bcdDigits (v : Byte) : List Byte :=
  [BitVec.ofNat 8 (v.toNat / 100), BitVec.ofNat 8 (v.toNat / 10 % 10), BitVec.ofNat 8 (v.toNat % 10)]

/-- `V[0]`, …, `V[x]` (42_index_memory.md R164). -/
def State.regsUpTo (s : State) (x : Reg) : List Byte := s.V.toList.take (x.val + 1)

/-- `V[0]`, …, `V[x]` replaced by the bytes at `I`, `I + 1`, …; the registers above `x` are kept (42_index_memory.md R165). -/
def State.loadRegsUpTo (s : State) (x : Reg) : State :=
  { s with V := Vector.ofFn fun i => if i ≤ x then s.mem.read (s.I.toNat + i.val) else s.reg i }

/-- The lowest address above `0xFFF` among `first`, …, `first + count - 1`, if there is one (20_memory.md R55). An address is
an exact sum, not reduced (R51). -/
def lowestOutOfRange (first count : Nat) : Option Word :=
  if first + count ≤ Config.memSize ∨ count = 0 then none else some (BitVec.ofNat 16 (max first Config.memSize))

/-- An instruction that accesses the `count` bytes from `I`: the whole range is checked first, and an address past `0xFFF`
raises `OutOfRange(MEMORY, a)` with `a` the lowest one and no effect (R55); otherwise it has `effect`. -/
def State.accessing (s : State) (count : Nat) (effect : State) : State :=
  match lowestOutOfRange s.I.toNat count with
  | some a => s.raise .memory a
  | none => effect

/-- A key number held in a register: above `0xF` it raises `OutOfRange(KEY_INDEX, k)` with no effect; otherwise `effect` of
whether that key is pressed (44_keys_timers.md R220 to R222). -/
def State.withKey (s : State) (k : Byte) (effect : Bool → State) : State :=
  if 0xF < k.toNat then s.raise .keyIndex k.zext else effect (s.KEY.getLsbD k.toNat)

/-- The keys pressed now that the snapshot has released, `KEY & ~KSNAP` (44_keys_timers.md R224). -/
def newKeys (keys snapshot : Word) : Word := keys &&& ~~~snapshot

/-- The lowest `k` with `v[k] = 1`, if there is one (R224). -/
def lowestKey (v : Word) : Option Nat := (List.range 16).find? fun k => v.getLsbD k

/-- The wrapped origin column, `V[x] mod 64` (43_display.md R194). -/
def originX (v : Byte) : Nat := v.toNat % Config.displayW

/-- The wrapped origin row, `V[y] mod 32` (R194). -/
def originY (v : Byte) : Nat := v.toNat % Config.displayH

end Sys2Proof.Machine
end

