-- ==== Sys2Proof/Machine/Flags.lean ====
section
/-! DEFINITION. The 8-bit results and the `VF` values of the instructions, computed exactly and then narrowed
(spec/41_alu.md R130 to R144, 10_state.md R35). -/

namespace Sys2Proof.Machine

/-! ## Results -/

/-- `(a + b) mod 256` (41_alu.md R133, R138). -/
def addResult (a b : Byte) : Byte := BitVec.ofNat 8 (a.toNat + b.toNat)

/-- Parameter `SUB_MODE` of this hardware (R131). -/
def subMode : Config.SubMode := .abs

/-- Minuend minus subtrahend in a mode: the absolute difference, or the difference `mod 256` (R131, R139, R141). -/
def subResult (mode : Config.SubMode) (minuend subtrahend : Byte) : Byte :=
  let d : Int := minuend.toNat - subtrahend.toNat
  match mode with
  | .abs => BitVec.ofNat 8 d.natAbs
  | .wrap => BitVec.ofInt 8 d

/-- `a >> 1` (R140). -/
def shrResult (a : Byte) : Byte := a >>> 1

/-- `(a << 1) mod 256` (R142). -/
def shlResult (a : Byte) : Byte := a <<< 1

/-! ## Flags (10_state.md R35) -/

/-- A flag that is 0 or 1. -/
def bitFlag (b : Bool) : Byte := if b then 1 else 0

/-- `8xy4`: 1 when the unsigned sum exceeds 255 (R138). -/
def carryFlag (a b : Byte) : Byte := bitFlag (decide (255 < a.toNat + b.toNat))

/-- `8xy5`, `8xy7`: 1 when there is no borrow, the minuend at least the subtrahend (R139, R141). -/
def noBorrowFlag (minuend subtrahend : Byte) : Byte := bitFlag (decide (subtrahend.toNat ≤ minuend.toNat))

/-- `8xy6`: the bit shifted out, 0 or 1 (R140). -/
def shrFlag (a : Byte) : Byte := a &&& 1

/-- `8xyE`: the high bit in place, `0x00` or `0x80` (R142). -/
def shlFlag (a : Byte) : Byte := a &&& 0x80

/-- `Fx1E`: 1 when the unmasked sum exceeds `0xFFF` (42_index_memory.md R161). -/
def indexFlag (i : Word) (v : Byte) : Byte := bitFlag (decide (Config.lastAddr < indexSum i v))

/-! ## The shared shapes of the ALU instructions (41_alu.md R130) -/

/-- An instruction that writes `V[x]` and no flag. -/
def State.writeResult (s : State) (x : Reg) (result : Byte) : State := (s.setReg x result).advance

/-- An instruction that writes `VF` first and `V[x]` second, both computed before, so that `x = 0xF` keeps the result. -/
def State.writeFlagged (s : State) (x : Reg) (flag result : Byte) : State := ((s.setFlag flag).setReg x result).advance

end Sys2Proof.Machine
end

