-- ==== Sys2Proof/Machine/Alu.lean ====
section
/-! DEFINITION. Register file and ALU instructions (spec/41_alu.md R130 to R144). -/

namespace Sys2Proof.Machine

/-- `6xkk` LD Vx, kk (R132). -/
def execLdImm (x : Reg) (kk : Byte) (s : State) : Result := .next (s.writeResult x kk)

/-- `7xkk` ADD Vx, kk (R133): no flag. -/
def execAddImm (x : Reg) (kk : Byte) (s : State) : Result := .next (s.writeResult x (addResult (s.reg x) kk))

/-- `8xy0` LD Vx, Vy (R134). -/
def execLdReg (x y : Reg) (s : State) : Result := .next (s.writeResult x (s.reg y))

/-- `8xy1` OR Vx, Vy (R135): `VF` is not reset. -/
def execOr (x y : Reg) (s : State) : Result := .next (s.writeResult x (s.reg x ||| s.reg y))

/-- `8xy2` AND Vx, Vy (R136): `VF` is not reset. -/
def execAnd (x y : Reg) (s : State) : Result := .next (s.writeResult x (s.reg x &&& s.reg y))

/-- `8xy3` XOR Vx, Vy (R137): `VF` is not reset. -/
def execXor (x y : Reg) (s : State) : Result := .next (s.writeResult x (s.reg x ^^^ s.reg y))

/-- `8xy4` ADD Vx, Vy (R138). -/
def execAddReg (x y : Reg) (s : State) : Result :=
  .next (s.writeFlagged x (carryFlag (s.reg x) (s.reg y)) (addResult (s.reg x) (s.reg y)))

/-- `8xy5` SUB Vx, Vy (R139). -/
def execSub (x y : Reg) (s : State) : Result :=
  .next (s.writeFlagged x (noBorrowFlag (s.reg x) (s.reg y)) (subResult subMode (s.reg x) (s.reg y)))

/-- `8xy6` SHR Vx, Vy (R140): shifts `V[x]`; `y` is not read. -/
def execShr (x _y : Reg) (s : State) : Result := .next (s.writeFlagged x (shrFlag (s.reg x)) (shrResult (s.reg x)))

/-- `8xy7` SUBN Vx, Vy (R141). -/
def execSubn (x y : Reg) (s : State) : Result :=
  .next (s.writeFlagged x (noBorrowFlag (s.reg y) (s.reg x)) (subResult subMode (s.reg y) (s.reg x)))

/-- `8xyE` SHL Vx, Vy (R142): shifts `V[x]`; `y` is not read. -/
def execShl (x _y : Reg) (s : State) : Result := .next (s.writeFlagged x (shlFlag (s.reg x)) (shlResult (s.reg x)))

/-- `Cxkk` RND Vx, kk (R143): the cycle's random byte masked by `kk`. -/
def execRnd (x : Reg) (kk : Byte) (s : State) : Result := .next (s.writeResult x (s.RNG &&& kk))

end Sys2Proof.Machine
end

