-- ==== Sys2Proof/Machine/Display.lean ====
section
/-! DEFINITION. The framebuffer, the Draw Engine and the display instructions (spec/10_state.md R29, 43_display.md R190 to
R199). -/

namespace Sys2Proof.Machine

/-- The framebuffer: 32 rows of 64 pixels (R29). -/
abbrev FrameBuffer := Vector (BitVec 64) 32

/-- `FB[x, y]`, the bit at linear index `x + y * 64`; false outside the grid (R29). -/
def FrameBuffer.pixel (fb : FrameBuffer) (x y : Nat) : Bool :=
  if h : y < 32 then fb[y].getLsbD x else false

/-- `FB[x, y] <- FB[x, y] ^ 1` for a row of the grid. -/
def FrameBuffer.toggle (fb : FrameBuffer) (x y : Nat) : FrameBuffer :=
  if h : y < 32 then fb.set y (fb[y] ^^^ (1#64 <<< x)) else fb

/-- `FB[x, y]` of a state. -/
def State.pixel (s : State) (x y : Nat) : Bool := FrameBuffer.pixel s.FB x y

/-- A draw in progress: the framebuffer, and whether a 1 has met a 1 (R196). -/
structure Canvas where
  fb : FrameBuffer
  hit : Bool
  deriving DecidableEq, Repr

/-- One sprite bit at column `x`, row `y` (R193): a column outside the grid is skipped (R195), a 0 bit leaves the pixel, a 1
bit toggles it and records a collision if it was set (R196). -/
def Canvas.plot (c : Canvas) (x y : Nat) (bit : Bool) : Canvas :=
  if Config.displayW ≤ x then c
  else if bit then { fb := FrameBuffer.toggle c.fb x y, hit := c.hit || FrameBuffer.pixel c.fb x y }
  else c

/-- One sprite row at column `x0`, row `y` (R192, R193): bit `7 - j` is the pixel at column `x0 + j`; a row outside the grid
is skipped (R195). -/
def Canvas.drawRow (c : Canvas) (row : Byte) (x0 y : Nat) : Canvas :=
  if Config.displayH ≤ y then c
  else (List.range 8).foldl (fun c j => c.plot (x0 + j) y (row.getLsbD (7 - j))) c

/-- The sprite's rows from row `y` down (R192, R193). -/
def Canvas.drawRows : Canvas → List Byte → Nat → Nat → Canvas
  | c, [], _, _ => c
  | c, row :: rows, x0, y => Canvas.drawRows (c.drawRow row x0 y) rows x0 (y + 1)

/-- The Draw Engine: `n` sprite bytes from `I`, drawn at the wrapped origin (R191 to R196). -/
def State.drawSprite (s : State) (vx vy : Byte) (n : Nat) : Canvas :=
  Canvas.drawRows { fb := s.FB, hit := false } (s.mem.readBytes s.I.toNat n) (originX vx) (originY vy)

/-- `00E0` CLS (R190). -/
def execCls (s : State) : Result := .next ({ s with FB := Vector.replicate 32 0 } : State).advance

/-- `Dxyn` DRW Vx, Vy, n (R193, R197, R198): the sprite's bytes are checked before any pixel changes; `VF` is written last. -/
def execDrw (x y : Reg) (n : Nat) (s : State) : Result :=
  let drawn := s.drawSprite (s.reg x) (s.reg y) n
  .next (s.accessing n (({ s with FB := drawn.fb } : State).setFlag (bitFlag drawn.hit)).advance)

end Sys2Proof.Machine
end

