-- ==== Sys2Proof/Machine/Flow.lean ====
section
/-! DEFINITION. Control flow: return, jumps, call, skips (spec/40_flow.md R100 to R108). -/

namespace Sys2Proof.Machine

/-- `00EE` RET (R101): pop the stack into `pc`. -/
def execRet (s : State) : Result := .next s.popJump

/-- `1nnn` JP (R102): `pc <- nnn`. -/
def execJp (nnn : Addr) (s : State) : Result := .next (s.jump (immAddr nnn))

/-- `2nnn` CALL (R103): push `pc + 2`, the address after the call, and jump; an overflow records `nnn`. -/
def execCall (nnn : Addr) (s : State) : Result := .next (s.pushJump (s.pc + 2) (immAddr nnn) (immAddr nnn))

/-- `3xkk` SE Vx, kk (R104). -/
def execSeImm (x : Reg) (kk : Byte) (s : State) : Result := .next (s.skipIf (s.reg x == kk))

/-- `4xkk` SNE Vx, kk (R105). -/
def execSneImm (x : Reg) (kk : Byte) (s : State) : Result := .next (s.skipIf (s.reg x != kk))

/-- `5xy0` SE Vx, Vy (R106). -/
def execSeReg (x y : Reg) (s : State) : Result := .next (s.skipIf (s.reg x == s.reg y))

/-- `9xy0` SNE Vx, Vy (R107). -/
def execSneReg (x y : Reg) (s : State) : Result := .next (s.skipIf (s.reg x != s.reg y))

/-- `Bnnn` JP V0, nnn (R108): the offset register is always `V[0]`. -/
def execJpV0 (nnn : Addr) (s : State) : Result := .next (s.jump (offsetTarget (s.reg 0) nnn))

end Sys2Proof.Machine
end

