-- ==== Sys2Proof/Machine/Index.lean ====
section
/-! DEFINITION. The index register and the memory instructions (spec/42_index_memory.md R160 to R166). -/

namespace Sys2Proof.Machine

/-- `Annn` LD I, nnn (R160). -/
def execLdI (nnn : Addr) (s : State) : Result := .next (s.setIndex (immAddr nnn)).advance

/-- `Fx1E` ADD I, Vx (R161): `I` is written first and `VF` second, from the old `I` and `V[x]`. -/
def execAddIVx (x : Reg) (s : State) : Result :=
  .next ((s.setIndex (indexSumMasked s.I (s.reg x))).setFlag (indexFlag s.I (s.reg x))).advance

/-- `Fx29` LD F, Vx (R162). -/
def execLdFVx (x : Reg) (s : State) : Result := .next (s.setIndex (glyphAddr (s.reg x))).advance

/-- `Fx33` LD B, Vx (R163): three digit bytes at `I`; `I` is kept. -/
def execLdBVx (x : Reg) (s : State) : Result :=
  .next (s.accessing 3 ({ s with mem := s.mem.storeBytes s.I.toNat (bcdDigits (s.reg x)) } : State).advance)

/-- `Fx55` LD [I], Vx (R164): `V[0]` to `V[x]` stored at `I`; `I` is kept. -/
def execLdMiVx (x : Reg) (s : State) : Result :=
  .next (s.accessing (x.val + 1) ({ s with mem := s.mem.storeBytes s.I.toNat (s.regsUpTo x) } : State).advance)

/-- `Fx65` LD Vx, [I] (R165): `V[0]` to `V[x]` loaded from `I`; `I` is kept. -/
def execLdVxMi (x : Reg) (s : State) : Result := .next (s.accessing (x.val + 1) (s.loadRegsUpTo x).advance)

end Sys2Proof.Machine
end

