-- ==== Sys2Proof/Machine/KeysTimers.lean ====
section
/-! DEFINITION. The key and timer instructions (spec/44_keys_timers.md R220 to R226). -/

namespace Sys2Proof.Machine

/-- `Ex9E` SKP Vx (R220). -/
def execSkp (x : Reg) (s : State) : Result := .next (s.withKey (s.reg x) fun pressed => s.skipIf pressed)

/-- `ExA1` SKNP Vx (R221). -/
def execSknp (x : Reg) (s : State) : Result := .next (s.withKey (s.reg x) fun pressed => s.skipIf (!pressed))

/-- `Fx07` LD Vx, DT (R223). -/
def execLdVxDt (x : Reg) (s : State) : Result := .next (s.writeResult x s.DT)

/-- The `Fx0A` that completes with key `k` (R224). -/
def State.takeKey (s : State) (x : Reg) (k : Nat) : State :=
  (({ s with WAIT := false, KSNAP := 0 } : State).setReg x (BitVec.ofNat 8 k)).advance

/-- The `Fx0A` that holds: the keys are noted and `pc` stays, so the next cycle fetches the word again (R224). -/
def State.holdForKey (s : State) : State := { s with WAIT := true, KSNAP := s.KEY }

/-- `Fx0A` LD Vx, K (R224): completes while waiting on a key pressed now and released at the last holding cycle, the lowest
such key; otherwise holds. -/
def execLdVxK (x : Reg) (s : State) : Result :=
  .next (match s.WAIT, lowestKey (newKeys s.KEY s.KSNAP) with
    | true, some k => s.takeKey x k
    | _, _ => s.holdForKey)

/-- `Fx15` LD DT, Vx (R225): `TREF` is not reset. -/
def execLdDtVx (x : Reg) (s : State) : Result := .next ({ s with DT := s.reg x } : State).advance

/-- `Fx18` LD ST, Vx (R226). -/
def execLdStVx (x : Reg) (s : State) : Result := .next ({ s with ST := s.reg x } : State).advance

end Sys2Proof.Machine
end

