-- ==== Sys2Proof/Machine/Cycle.lean ====
section
/-! DEFINITION. The cycle: the host's inputs, the Timing Driver's tick, fetch, decode, execute (spec/30_encoding.md R70,
60_exceptions.md R254, R256, R265, R270 to R276). -/

namespace Sys2Proof.Machine

/-! ## The host's inputs -/

/-- The inputs of cycle `n` when `State.inputs` names none: the host resets nothing and writes no key, and the two draws are
free values (log 2, log 3). -/
def HostInput.free (n : Nat) : HostInput :=
  { reset := none, keys := none, ticks := Config.freeTicks n, rng := Config.freeRandom n }

/-- What the host supplies before the coming cycle. -/
def State.nextInput (s : State) : HostInput := s.inputs.headD (HostInput.free s.cycles)

/-- A reset the host asks for, or none (60_exceptions.md R276). -/
def State.maybeReset (s : State) : Option ResetRequest → State
  | none => s
  | some r => s.hostReset r

/-- The host's moves before a cycle (R270): a reset, then the key flags (R271); the window count and the random byte are
fixed for the whole cycle. -/
def State.receive (s : State) : State :=
  let t := s.maybeReset s.nextInput.reset
  { t with
    KEY := s.nextInput.keys.getD t.KEY
    TICKS := s.nextInput.ticks
    RNG := s.nextInput.rng
    inputs := s.inputs.tail
    cycles := s.cycles + 1 }

/-! ## The Timing Driver (60_exceptions.md R264 to R267) -/

/-- `max(0, t - k)`: a timer after `k` windows; zero stays zero. -/
def decayed (t : Byte) (k : Nat) : Byte := if t = 0 then 0 else BitVec.ofNat 8 (t.toNat - k)

/-- `TimerTick(k)` (R265). -/
def State.tickBy (s : State) (k : Nat) : State :=
  { s with DT := decayed s.DT k, ST := decayed s.ST k, TREF := s.TREF + k }

/-- The tick of the cycle, by its draw `TICKS`. -/
def State.timerTick (s : State) : State := s.tickBy s.TICKS

/-- The whole windows elapsed when the host clock reads `now` seconds since the host time at reset,
`floor((now - TREF) * 60)`; the clock never goes backwards (R265, R273). -/
def State.windowsElapsed (s : State) (now : Rat) : Nat := (Rat.floor (now * Config.timerHz - s.TREF)).toNat

/-- The inputs of a cycle that the host starts with the clock at `now`, writing no key. -/
def State.clockInput (s : State) (now : Rat) (rng : Byte) : HostInput :=
  { reset := none, keys := none, ticks := s.windowsElapsed now, rng := rng }

/-! ## Fetch, decode, execute -/

/-- `OPC` after the fetch of the word at `pc` (30_encoding.md R70). -/
def State.fetched (s : State) : State := { s with OPC := s.fetchWord }

/-- Decode and execute the word in `OPC`; a word that is no instruction raises `UnknownInstruction(OPC)` (R80). -/
def decodeExecute (s : State) : Result :=
  match decode s.OPC with
  | some i => exec i s
  | none => .next (s.raise .unknownInstruction s.OPC)

/-- Fetch, decode, execute; `pc > 0xFFE` raises `OutOfRange(FETCH, pc)` and `OPC` is kept (R70, 60_exceptions.md R256). -/
def fetchExecute (s : State) : Result :=
  if 0xFFE < s.pc.toNat then .next (s.raise .fetch s.pc) else decodeExecute s.fetched

/-- `Cycle(TICKS, RNG)` (R70): a halted core runs no cycle (60_exceptions.md R254); the tick comes before the fetch. -/
def cycle (s : State) : Result :=
  match s.FAULT with
  | some r => .fault (.halted r)
  | none => fetchExecute s.timerTick

/-! ## Placing an instruction where the next step fetches it -/

/-- The state whose next step can fetch: not halted, no reset pending, `pc` where a word can be fetched. -/
def State.ableToFetch (s : State) : State :=
  { s with
    FAULT := none
    inputs := s.inputs.modifyHead fun inp => { inp with reset := none }
    pc := if 0xFFE < s.pc.toNat then 0x200 else s.pc }

/-- `w` stored, big-endian, at `pc` of the state that can fetch. -/
def State.placeWord (s : State) (w : Word) : State :=
  { s.ableToFetch with mem := s.mem.storeWord s.ableToFetch.pc.toNat w }

end Sys2Proof.Machine
end

