-- ==== Sys2Proof/Machine/Step.lean ====
section
/-! DEFINITION. One step of the core, and placing an instruction for it (spec/30_encoding.md R70, 92_eei_decisions.md D2). -/

namespace Sys2Proof.Machine

/-- One step: the host's moves, then one cycle (60_exceptions.md R270, 30_encoding.md R70). -/
def step (s : State) : Host.Outcome State Fault Refusal := cycle s.receive

/-- `s` with the instruction `w` of `nbits` bits where the next step fetches it (log 10). The word is 16 bits; `w` is cut to
`nbits` bits and the bits above them are 0. -/
def State.withFetchWord (s : State) (nbits w : Nat) : State := s.placeWord (BitVec.ofNat 16 (w % 2 ^ nbits))

end Sys2Proof.Machine
end

