-- ==== Sys2Proof/Safety.lean ====
section
/-! DEFINITION. What claims about the core are said in: the invariant, safe runs, frames, completion, errors, and the sprite
bit that falls on a pixel. -/

namespace Sys2Proof.Safety

open Sys2Proof.Machine

/-! ## The invariant of a run -/

/-- What holds between cycles on every run. States that break it exist as data but no run from a reset reaches them. -/
structure Inv (s : State) : Prop where
  /-- Memory is in its canonical form. -/
  memory : s.mem.wf = true
  /-- `I` holds a 12-bit value (10_state.md R25). -/
  index : s.I.toNat ≤ 0xFFF
  /-- `pc` lies in `[0x000, 0x1002]` (10_state.md R24). -/
  counter : s.pc.toNat ≤ 0x1002
  /-- An occupied stack entry is the address after a call, at most `0x1000` (10_state.md R24). -/
  returns : ∀ j : Fin 16, j.val < s.SP.val → s.S[j].toNat ≤ 0x1000
  /-- No snapshot is kept when no `Fx0A` waits (44_keys_timers.md R224). -/
  noSnapshot : s.WAIT = false → s.KSNAP = 0
  /-- While `WAIT` is set the core runs and `pc` is at the `Fx0A` that holds (10_state.md R34). -/
  waiting : s.WAIT = true → s.FAULT = none ∧ s.pc.toNat ≤ 0xFFE ∧ ∃ x, decode s.fetchWord = some (.ldVxK x)
  /-- The error record names the instruction address and the opcode register (60_exceptions.md R253). -/
  record : ∀ r, s.FAULT = some r → r.pc = s.pc ∧ r.opc = s.OPC

/-! ## Runs -/

/-- The core is halted by an error (60_exceptions.md R254). -/
def Halted (s : State) : Prop := s.FAULT.isSome = true

/-- A safe run of `n` steps: every step answers a next state and none of these is halted. -/
def safeRun : Nat → State → Bool
  | 0, s => s.FAULT.isNone
  | n + 1, s =>
    match step s with
    | .next t => t.FAULT.isNone && safeRun n t
    | .fault _ => false
    | .refused _ => false

/-- The host asks for no reset before any coming cycle. -/
def NoReset (s : State) : Prop := ∀ inp ∈ s.inputs, inp.reset = none

/-- The host writes no key before any coming cycle. -/
def NoKeyWrite (s : State) : Prop := ∀ inp ∈ s.inputs, inp.keys = none

/-! ## Frames -/

/-- The parts of the state beside the general registers and `pc`. -/
inductive Part where
  | index
  | stack
  | delayTimer
  | soundTimer
  | memory
  | screen
  | keyWait
  | faultRecord
  | clockReference
  | opcode
  | keyFlags
  | hostInputs
  deriving DecidableEq, Repr

/-- A part is the same in two states: memory byte by byte, the screen pixel by pixel. -/
def Unchanged : Part → State → State → Prop
  | .index, s, t => t.I = s.I
  | .stack, s, t => t.SP = s.SP ∧ ∀ j : Fin 16, t.S[j] = s.S[j]
  | .delayTimer, s, t => t.DT = s.DT
  | .soundTimer, s, t => t.ST = s.ST
  | .memory, s, t => ∀ a, t.mem.read a = s.mem.read a
  | .screen, s, t => ∀ x y, t.pixel x y = s.pixel x y
  | .keyWait, s, t => t.WAIT = s.WAIT ∧ t.KSNAP = s.KSNAP
  | .faultRecord, s, t => t.FAULT = s.FAULT
  | .clockReference, s, t => t.TREF = s.TREF
  | .opcode, s, t => t.OPC = s.OPC
  | .keyFlags, s, t => t.KEY = s.KEY
  | .hostInputs, s, t => t.TICKS = s.TICKS ∧ t.RNG = s.RNG ∧ t.inputs = s.inputs ∧ t.cycles = s.cycles

/-- Every general register outside `written`, and every part outside `parts`, is unchanged. `pc` may change. -/
def FrameExcept (written : Reg → Prop) (parts : List Part) (s t : State) : Prop :=
  (∀ r, ¬ written r → t.reg r = s.reg r) ∧ ∀ p, p ∉ parts → Unchanged p s t

/-- No general register. -/
def noReg : Reg → Prop := fun _ => False

/-- Every byte outside the `count` bytes from `first` reads as before. -/
def SameOutside (first count : Nat) (s t : State) : Prop :=
  ∀ a, (a < first ∨ first + count ≤ a) → t.mem.read a = s.mem.read a

/-! ## Completion and errors -/

/-- Instruction `i` completes from `s`, in a state that meets `post`. -/
def Completes (i : Instr) (s : State) (post : State → Prop) : Prop := ∃ t, exec i s = .next t ∧ post t

/-- Instruction `i` raises an error from `s`: the record is written and nothing else changes (60_exceptions.md R253). -/
def Raises (i : Instr) (s : State) (error : ErrorKind) (info : Word) : Prop :=
  exec i s = .next { s with FAULT := some { error := error, info := info, pc := s.pc, opc := s.OPC } }

/-- Every word of a row of the opcode table decodes to the instruction `f` reads from its fields. -/
def DecodesRow (mask pattern : Word) (f : Word → Instr) : Prop := ∀ w : Word, w &&& mask = pattern → decode w = some (f w)

/-- The state in which a cycle executes the word `w`: the cycle's tick has been applied and `OPC` holds the word
(30_encoding.md R70). -/
def executing (r : State) (w : Word) : State :=
  { r with
    DT := BitVec.ofNat 8 (r.DT.toNat - r.TICKS)
    ST := BitVec.ofNat 8 (r.ST.toNat - r.TICKS)
    TREF := r.TREF + r.TICKS
    OPC := w }

/-! ## The sprite -/

/-- The sprite bit on pixel `(cx, cy)` of the grid, when the `n` sprite bytes from `I` are drawn at the wrapped origin of
`(vx, vy)`: bit `7 - (cx - x0)` of row `cy - y0`, false outside the sprite (43_display.md R192 to R195). -/
def spriteBit (s : State) (vx vy : Byte) (n cx cy : Nat) : Bool :=
  decide (vx.toNat % 64 ≤ cx ∧ cx < vx.toNat % 64 + 8 ∧ vy.toNat % 32 ≤ cy ∧ cy < vy.toNat % 32 + n) &&
    (s.mem.read (s.I.toNat + (cy - vy.toNat % 32))).getLsbD (7 - (cx - vx.toNat % 64))

/-- Some pixel that the sprite sets was set before: a 1 meets a 1 (43_display.md R196). -/
def Collides (s : State) (vx vy : Byte) (n : Nat) : Prop :=
  ∃ (cx : Fin 64) (cy : Fin 32), s.pixel cx cy = true ∧ spriteBit s vx vy n cx cy = true

/-! ## What each instruction may write -/

/-- The six conditional skips (10_state.md R23). -/
def isSkip : Instr → Bool
  | .seImm _ _ | .sneImm _ _ | .seReg _ _ | .sneReg _ _ | .skp _ | .sknp _ => true
  | _ => false

/-- The instructions that write `VF` as a flag, whatever `x` and `y` are (10_state.md R22). -/
def writesFlag : Instr → Bool
  | .addReg _ _ | .sub _ _ | .shr _ _ | .subn _ _ | .shl _ _ | .addIVx _ | .drw _ _ _ => true
  | _ => false

/-- The instruction names register `r` as a destination. -/
def isDestination : Instr → Reg → Bool
  | .ldImm x _, r | .addImm x _, r | .rnd x _, r => r == x
  | .ldReg x _, r | .orReg x _, r | .andReg x _, r | .xorReg x _, r => r == x
  | .addReg x _, r | .sub x _, r | .shr x _, r | .subn x _, r | .shl x _, r => r == x
  | .ldVxDt x, r | .ldVxK x, r => r == x
  | .ldVxMi x, r => decide (r ≤ x)
  | _, _ => false

/-- The parts of the state an instruction may write (10_state.md R25 to R34): every other part is untouched by it. -/
def mayWrite : Instr → Part → Bool
  | .ldI _, .index | .addIVx _, .index | .ldFVx _, .index => true
  | .call _, .stack | .ret, .stack => true
  | .ldDtVx _, .delayTimer => true
  | .ldStVx _, .soundTimer => true
  | .ldBVx _, .memory | .ldMiVx _, .memory => true
  | .cls, .screen | .drw _ _ _, .screen => true
  | .ldVxK _, .keyWait => true
  | .call _, .faultRecord | .ret, .faultRecord => true
  | .drw _ _ _, .faultRecord | .ldBVx _, .faultRecord => true
  | .ldMiVx _, .faultRecord | .ldVxMi _, .faultRecord => true
  | .skp _, .faultRecord | .sknp _, .faultRecord => true
  | _, _ => false

end Sys2Proof.Safety
end

