-- ==== Sys2Proof/Certificates/Slice0/Obligations.lean ====
section
/-! DEFINITION. The statements for the provers. Each docstring names the rules of spec/ it formalises. -/

open Sys2Proof Sys2Proof.Machine Sys2Proof.Safety

/-! ## Encoding -/

/-- Words written out from the patterns of 30_encoding.md R90, one of every family, decode to what they stand for; four
words outside the instruction set decode to nothing (R75 to R79). -/
def Obligations.SampleWordsDecode : Prop :=
  decode 0x00E0 = some .cls ∧ decode 0x0AEE = some .ret ∧ decode 0x1234 = some (.jp 0x234) ∧
  decode 0x2ABC = some (.call 0xABC) ∧ decode 0x3A42 = some (.seImm 10 0x42) ∧ decode 0x4B7F = some (.sneImm 11 0x7F) ∧
  decode 0x5120 = some (.seReg 1 2) ∧ decode 0x6A42 = some (.ldImm 10 0x42) ∧ decode 0x71FF = some (.addImm 1 0xFF) ∧
  decode 0x8125 = some (.sub 1 2) ∧ decode 0x8F0E = some (.shl 15 0) ∧ decode 0x9340 = some (.sneReg 3 4) ∧
  decode 0xA2F0 = some (.ldI 0x2F0) ∧ decode 0xBFFF = some (.jpV0 0xFFF) ∧ decode 0xC30F = some (.rnd 3 0x0F) ∧
  decode 0xD12F = some (.drw 1 2 15) ∧ decode 0xE29E = some (.skp 2) ∧ decode 0xF265 = some (.ldVxMi 2) ∧
  decode 0x0123 = none ∧ decode 0x812F = none ∧ decode 0xE2A2 = none ∧ decode 0x512F = none

/-- The fields of a word are the bits 30_encoding.md R72 gives them, as arithmetic on the word's value. -/
def Obligations.FieldsAreTheirBits : Prop :=
  ∀ w : Word,
    (opField w).toNat = w.toNat / 4096 ∧
    (regOf (xField w)).val = w.toNat / 256 % 16 ∧
    (regOf (yField w)).val = w.toNat / 16 % 16 ∧
    (nField w).toNat = w.toNat % 16 ∧
    (kkField w).toNat = w.toNat % 256 ∧
    (nnnField w).toNat = w.toNat % 4096

/-- Decode of encode is the instruction, for every well-formed instruction with every operand value. -/
def Obligations.DecodeOfEncodeIsIdentity : Prop :=
  ∀ i : Instr, i.wf = true → decode (encode i) = some i

/-- Every word that decodes is the encoding of what it decodes to, but for the bits 11:8 that family `0` does not read; and
what it decodes to is well-formed (30_encoding.md R75, R81). -/
def Obligations.EncodeOfDecodeIsTheWord : Prop :=
  ∀ (w : Word) (i : Instr), decode w = some i →
    i.wf = true ∧ encode i = if w.toNat < 0x1000 then w &&& 0xF0FF else w

/-- A word decodes exactly when it lies in a row of the opcode table, it then lies in one row only, and that is the row of
the instruction it decodes to (30_encoding.md R81 without its counts). -/
def Obligations.DecoderAgreesWithOpcodeTable : Prop :=
  ∀ w : Word, (opcodeTable.filter fun row => row.holds w).map OpcodeRow.mnemonic = ((decode w).map Instr.mnemonic).toList

/-! ## The cycle -/

/-- Where the core is not halted after the host's moves and the word at `pc` decodes, the step is `exec` of the instruction in
the state with the tick applied and `OPC` the word (30_encoding.md R70). -/
def Obligations.StepRunsDecodedInstruction : Prop :=
  ∀ (s : State) (i : Instr),
    let r := s.receive
    let w := wordOfBytes (r.mem.read r.pc.toNat) (r.mem.read (r.pc.toNat + 1))
    r.FAULT = none → r.pc.toNat ≤ 0xFFE → decode w = some i → step s = exec i (executing r w)

/-- Before a cycle the core takes the host's next input: its reset if it asks for one, its key flags if it writes them, and
the cycle's two draws; without a reset nothing else changes (60_exceptions.md R270, R271; the queue is log 2 to 4). -/
def Obligations.HostInputsReachTheCycle : Prop :=
  ∀ (s : State) (inp : HostInput) (rest : List HostInput), s.inputs = inp :: rest →
    let r := s.receive
    r.TICKS = inp.ticks ∧ r.RNG = inp.rng ∧ r.inputs = rest ∧ r.cycles = s.cycles + 1 ∧
    (inp.reset = none →
      r.KEY = inp.keys.getD s.KEY ∧
      { r with KEY := s.KEY, TICKS := s.TICKS, RNG := s.RNG, inputs := s.inputs, cycles := s.cycles } = s) ∧
    (∀ q, inp.reset = some q →
      r.KEY = inp.keys.getD 0 ∧ r.FAULT = none ∧ r.pc = 0x200 ∧ ∀ a, r.mem.read a = (resetMemory q).read a)

/-- A word in no row of the opcode table raises `UnknownInstruction(OPC)`; only `OPC` and the tick have changed
(30_encoding.md R80). -/
def Obligations.UnknownWordRaises : Prop :=
  ∀ s : State,
    let r := s.receive
    let w := wordOfBytes (r.mem.read r.pc.toNat) (r.mem.read (r.pc.toNat + 1))
    r.FAULT = none → r.pc.toNat ≤ 0xFFE → (∀ row ∈ opcodeTable, row.holds w = false) →
      step s = .next { executing r w with
        FAULT := some { error := .unknownInstruction, info := w, pc := r.pc, opc := w } }

/-- A fetch at `pc > 0xFFE` raises `OutOfRange(FETCH)` with `info` = `pc`; `OPC` keeps its value and the tick stands
(30_encoding.md R70, 60_exceptions.md R251). -/
def Obligations.FetchPastTheEndRaises : Prop :=
  ∀ s : State,
    let r := s.receive
    r.FAULT = none → 0xFFE < r.pc.toNat →
      step s = .next { executing r r.OPC with
        FAULT := some { error := .fetch, info := r.pc, pc := r.pc, opc := r.OPC } }

/-- A halted core runs no cycle, however many steps are tried, until the host's next input is a reset (60_exceptions.md R254);
the fault outcome is log 1. -/
def Obligations.HaltedCoreStaysHalted : Prop :=
  ∀ (s : State) (r : FaultRecord) (n : Nat), s.FAULT = some r → s.nextInput.reset = none →
    core.run (n + 1) s = .fault (.halted r)

/-- The only stop is that one: no instruction is refused, and a step that stops is a step from a halted core with no reset
asked for (60_exceptions.md R254, log 1). -/
def Obligations.OnlyHaltedCoreStops : Prop :=
  ∀ s : State,
    (∃ t, step s = .next t) ∨
    (∃ r, s.FAULT = some r ∧ s.nextInput.reset = none ∧ step s = .fault (.halted r))

/-- An error is precise: beside the record, the cycle has changed only what the host moved, the tick, and `OPC`, which holds
the word fetched, or its old value after a fetch error (60_exceptions.md R253). -/
def Obligations.ErrorsArePrecise : Prop :=
  ∀ (s t : State) (f : FaultRecord), step s = .next t → t.FAULT = some f →
    let r := s.receive
    t = { executing r t.OPC with FAULT := some f } ∧
    f.pc = r.pc ∧ f.opc = t.OPC ∧
    (f.error = .fetch → t.OPC = r.OPC) ∧
    (f.error ≠ .fetch → t.OPC = wordOfBytes (r.mem.read r.pc.toNat) (r.mem.read (r.pc.toNat + 1)))

/-- Every error of a cycle has one of the six causes of 60_exceptions.md R251, with its code and its `info`. -/
def Obligations.ErrorCausesAreTheSixListed : Prop :=
  (ErrorKind.code .unknownInstruction = 1 ∧ ErrorKind.code .fetch = 2 ∧ ErrorKind.code .stackOverflow = 3 ∧
    ErrorKind.code .stackUnderflow = 4 ∧ ErrorKind.code .memory = 5 ∧ ErrorKind.code .keyIndex = 6) ∧
  ∀ (s t : State) (f : FaultRecord), step s = .next t → t.FAULT = some f →
    let r := s.receive
    let w := wordOfBytes (r.mem.read r.pc.toNat) (r.mem.read (r.pc.toNat + 1))
    match f.error with
    | .unknownInstruction => r.pc.toNat ≤ 0xFFE ∧ decode w = none ∧ f.info = w
    | .fetch => 0xFFE < r.pc.toNat ∧ f.info = r.pc
    | .stackOverflow => ∃ nnn, decode w = some (.call nnn) ∧ r.SP.val = 16 ∧ f.info.toNat = nnn.toNat
    | .stackUnderflow => decode w = some .ret ∧ r.SP.val = 0 ∧ f.info = 0
    | .memory => ∃ (x y : Reg) (n count : Nat),
        ((decode w = some (.drw x y n) ∧ count = n ∧ 0 < n) ∨ (decode w = some (.ldBVx x) ∧ count = 3) ∨
          (decode w = some (.ldMiVx x) ∧ count = x.val + 1) ∨ (decode w = some (.ldVxMi x) ∧ count = x.val + 1)) ∧
        0xFFF < r.I.toNat + (count - 1) ∧ f.info.toNat = max r.I.toNat 0x1000
    | .keyIndex => ∃ x : Reg, (decode w = some (.skp x) ∨ decode w = some (.sknp x)) ∧
        0xF < (r.reg x).toNat ∧ f.info.toNat = (r.reg x).toNat

/-! ## Reset and the timers -/

/-- After the host's reset every piece of the spec's state holds its reset value: memory is the `FONT` the reset names at
`0x000` to `0x04F`, glyph `d` at `d * 5`, the image of at most 3584 bytes at `0x200`, and elsewhere `RESET_FILL`, whatever the
reset names (the last cell it names for an address), in the canonical form (10_state.md R33, R37, 70_reset_and_hazards.md
R290, R293). The byte where nothing is named, `resetFill`, and the unit of `TREF` are the model's (log 5, log 8). -/
def Obligations.HostResetSetsEveryPiece : Prop :=
  ∀ (s : State) (q : ResetRequest),
    let t := s.hostReset q
    (∀ r, t.reg r = 0) ∧ t.I = 0 ∧ t.pc = 0x200 ∧ t.SP.val = 0 ∧ (∀ j : Fin 16, t.S[j] = 0) ∧
    t.DT = 0 ∧ t.ST = 0 ∧ (∀ x y, t.pixel x y = false) ∧
    t.KEY = 0 ∧ t.OPC = 0 ∧ t.WAIT = false ∧ t.KSNAP = 0 ∧ t.FAULT = none ∧ t.TREF = 0 ∧
    t.mem.wf = true ∧
    (∀ (d : Fin 16) (row : Fin 5), q.font[d.val * 5 + row.val]? = some (t.mem.read (d.val * 5 + row.val))) ∧
    (∀ j, j < q.image.length → j < 3584 → q.image[j]? = some (t.mem.read (0x200 + j))) ∧
    (∀ a, 80 ≤ a → a ≤ 0xFFF → (a < 0x200 ∨ 0x200 + q.image.length ≤ a) →
      t.mem.read a = ((q.fill.reverse.find? fun c => c.1 == a).map Prod.snd).getD resetFill)

/-- The tick takes `k` windows from both timers at once, down to 0, moves `TREF` by `k` windows, changes nothing else, and two
ticks are one tick of the sum: a catch-up, not a decrement per call (60_exceptions.md R265). -/
def Obligations.TickAppliesAllWindowsAtOnce : Prop :=
  ∀ (s : State) (k : Nat),
    let t := s.tickBy k
    t.DT.toNat = s.DT.toNat - k ∧ t.ST.toNat = s.ST.toNat - k ∧ t.TREF = s.TREF + k ∧
    { t with DT := s.DT, ST := s.ST, TREF := s.TREF } = s ∧
    ∀ k', t.tickBy k' = s.tickBy (k + k')

/-- Ticking by the windows the clock shows brings `TREF` to the last whole 1/60 s window at or before `now`, keeping the
fraction, and a second tick at the same `now` takes nothing (60_exceptions.md R265; `TREF` counts windows, log 8). -/
def Obligations.ClockTickKeepsTheFraction : Prop :=
  ∀ (s : State) (now : Rat), (s.TREF : Rat) ≤ now * 60 →
    let t := s.tickBy (s.windowsElapsed now)
    (t.TREF : Rat) ≤ now * 60 ∧ now * 60 < (t.TREF : Rat) + 1 ∧ t.tickBy (t.windowsElapsed now) = t

/-! ## Whole-machine rules -/

/-- The invariant holds right after reset, whatever `FONT`, `RESET_FILL` and image the reset is given. -/
def Obligations.InvariantHoldsAtReset : Prop := Inv State.reset ∧ ∀ q : ResetRequest, Inv (State.resetWith q)

/-- Every step keeps the invariant, whatever the host does. -/
def Obligations.StepKeepsInvariant : Prop :=
  ∀ s t : State, Inv s → step s = .next t → Inv t

/-- Each part of the state is written only by the instructions the spec lists for it, and an instruction that changes `I`
leaves a 12-bit value there (10_state.md R25 to R32, R34). -/
def Obligations.OnlyListedInstructionsWriteEachPart : Prop :=
  ∀ (i : Instr) (s t : State), exec i s = .next t →
    (∀ p, mayWrite i p = false → Unchanged p s t) ∧ (t.I = s.I ∨ t.I.toNat ≤ 0xFFF)

/-- An instruction writes no general register but its destination and, if it is one of the seven that do, `VF` as a flag
(10_state.md R22, R35). -/
def Obligations.RegistersChangeOnlyAsNamed : Prop :=
  ∀ (i : Instr) (s t : State) (r : Reg), exec i s = .next t →
    isDestination i r = false → (writesFlag i = true → r ≠ 15) → t.reg r = s.reg r

/-- How each instruction leaves `pc`: unmoved where it raises; otherwise the ordinary advance by 2, 4 for a taken skip, the
direct write of a jump, call or return, and no write while `Fx0A` holds (10_state.md R23). -/
def Obligations.ProgramCounterMovesAsListed : Prop :=
  ∀ (i : Instr) (s t : State), s.FAULT = none → exec i s = .next t →
    (t.FAULT ≠ none → t.pc = s.pc) ∧
    (t.FAULT = none →
      match i with
      | .jp nnn | .call nnn => t.pc.toNat = nnn.toNat
      | .jpV0 nnn => t.pc.toNat = ((s.reg 0).toNat + nnn.toNat) % 4096
      | .ret => ∃ k : Fin 16, s.SP.val = k.val + 1 ∧ t.pc = s.S[k]
      | .ldVxK _ => (t.WAIT = true ∧ t.pc = s.pc) ∨ (t.WAIT = false ∧ t.pc = s.pc + 2)
      | _ => t.pc = s.pc + 2 ∨ (isSkip i = true ∧ t.pc = s.pc + 4))

/-- No instruction reads `ST`: two states that differ only there run alike and differ only there (10_state.md R28). -/
def Obligations.SoundTimerIsNeverRead : Prop :=
  ∀ (i : Instr) (s : State) (v : Byte), ∃ t u,
    exec i s = .next t ∧ exec i { s with ST := v } = .next u ∧ { u with ST := t.ST } = t

/-- Stack entries at or above `SP` are not observable: two states that agree below `SP` run alike and agree below the new
`SP` (10_state.md R26, R34). -/
def Obligations.FreeStackEntriesAreUnobservable : Prop :=
  ∀ (i : Instr) (s : State) (stack : Vector Word 16),
    (∀ j : Fin 16, j.val < s.SP.val → stack[j] = s.S[j]) → ∃ t u,
      exec i s = .next t ∧ exec i { s with S := stack } = .next u ∧
      { u with S := t.S } = t ∧ ∀ j : Fin 16, j.val < t.SP.val → u.S[j] = t.S[j]

/-- A skip, taken or not, does not depend on memory: the word it passes over is neither fetched nor decoded, whatever it is
(30_encoding.md R82). -/
def Obligations.SkippedWordIsNotRead : Prop :=
  ∀ (i : Instr) (s : State) (m : Memory), isSkip i = true → ∃ t,
    exec i s = .next t ∧ exec i { s with mem := m } = .next { t with mem := m }

/-- A word stored by `Fx55` where `pc` then points is what the very next step runs (20_memory.md R64). -/
def Obligations.StoredWordIsFetchedNext : Prop :=
  ∀ (s t : State) (x j j' : Reg) (i : Instr),
    s.mem.wf = true → s.FAULT = none → s.I.toNat + x.val ≤ 0xFFF → exec (.ldMiVx x) s = .next t →
    j'.val = j.val + 1 → j' ≤ x → t.pc.toNat = s.I.toNat + j.val → t.nextInput.reset = none →
    decode (wordOfBytes (s.reg j) (s.reg j')) = some i →
      step t = exec i (executing t.receive (wordOfBytes (s.reg j) (s.reg j')))

/-- A jump to itself repeats for ever: any number of steps, with no reset asked for, leaves everything but the timers, `OPC`
and what the host moves (40_flow.md R102, 70_reset_and_hazards.md R304). -/
def Obligations.JumpToItselfRepeats : Prop :=
  ∀ (n : Nat) (s : State) (nnn : Addr),
    s.FAULT = none → s.pc.toNat ≤ 0xFFE → decode s.fetchWord = some (.jp nnn) → nnn.toNat = s.pc.toNat → NoReset s →
      ∃ t, core.run n s = .next t ∧ t.pc = s.pc ∧
        FrameExcept noReg [.delayTimer, .soundTimer, .clockReference, .opcode, .keyFlags, .hostInputs] s t

/-- The instruction that `withFetchWord` places is the one the next step runs (log 10). -/
def Obligations.PlacedInstructionRuns : Prop :=
  ∀ (s : State) (i : Instr), s.mem.wf = true → i.wf = true →
    ∃ r, step (s.withFetchWord 16 (encode i).toNat) = exec i r ∧ r.OPC = encode i ∧ (∀ x, r.reg x = s.reg x) ∧
      r.I = s.I ∧ r.SP = s.SP ∧ r.S = s.S ∧ r.FAULT = none

/-! ## Control flow -/

/-- `00EE` pops `pc`, or raises `OutOfRange(STACK_UNDERFLOW)` on an empty stack (40_flow.md R101). -/
def Obligations.ReturnPopsOrUnderflows : Prop :=
  DecodesRow 0xF0FF 0x00EE (fun _ => .ret) ∧
  (∀ s : State, s.SP.val = 0 → Raises .ret s .stackUnderflow 0) ∧
  (∀ (s : State) (k : Fin 16), s.SP.val = k.val + 1 → Completes .ret s fun t =>
    t.SP.val = k.val ∧ t.pc = s.S[k] ∧ (∀ j : Fin 16, t.S[j] = s.S[j]) ∧ FrameExcept noReg [.stack] s t)

/-- `1nnn` writes `nnn` to `pc` and nothing else (40_flow.md R102). -/
def Obligations.JumpWritesTarget : Prop :=
  DecodesRow 0xF000 0x1000 (fun w => .jp (nnnField w)) ∧
  ∀ (nnn : Addr) (s : State), Completes (.jp nnn) s fun t => t.pc.toNat = nnn.toNat ∧ FrameExcept noReg [] s t

/-- `2nnn` pushes `pc + 2` and jumps, or raises `OutOfRange(STACK_OVERFLOW)` when sixteen entries are occupied (40_flow.md
R103). -/
def Obligations.CallPushesOrOverflows : Prop :=
  DecodesRow 0xF000 0x2000 (fun w => .call (nnnField w)) ∧
  (∀ (nnn : Addr) (s : State), s.SP.val = 16 → Raises (.call nnn) s .stackOverflow (BitVec.ofNat 16 nnn.toNat)) ∧
  (∀ (nnn : Addr) (s : State) (k : Fin 16), s.SP.val = k.val → Completes (.call nnn) s fun t =>
    t.SP.val = k.val + 1 ∧ t.S[k] = s.pc + 2 ∧ (∀ j : Fin 16, j ≠ k → t.S[j] = s.S[j]) ∧ t.pc.toNat = nnn.toNat ∧
    FrameExcept noReg [.stack] s t)

/-- `3xkk` and `4xkk` skip the next word exactly when `V[x]` equals, or does not equal, `kk` (40_flow.md R104, R105). -/
def Obligations.ImmediateSkips : Prop :=
  DecodesRow 0xF000 0x3000 (fun w => .seImm (regOf (xField w)) (kkField w)) ∧
  DecodesRow 0xF000 0x4000 (fun w => .sneImm (regOf (xField w)) (kkField w)) ∧
  ∀ (x : Reg) (kk : Byte) (s : State),
    (Completes (.seImm x kk) s fun t =>
      t.pc = (if (s.reg x).toNat = kk.toNat then s.pc + 4 else s.pc + 2) ∧ FrameExcept noReg [] s t) ∧
    (Completes (.sneImm x kk) s fun t =>
      t.pc = (if (s.reg x).toNat = kk.toNat then s.pc + 2 else s.pc + 4) ∧ FrameExcept noReg [] s t)

/-- `5xy0` and `9xy0` skip the next word exactly when `V[x]` equals, or does not equal, `V[y]`; a nonzero low nibble is an
unknown instruction (40_flow.md R106, R107). -/
def Obligations.RegisterSkips : Prop :=
  DecodesRow 0xF00F 0x5000 (fun w => .seReg (regOf (xField w)) (regOf (yField w))) ∧
  DecodesRow 0xF00F 0x9000 (fun w => .sneReg (regOf (xField w)) (regOf (yField w))) ∧
  (∀ w : Word, (w &&& 0xF000 = 0x5000 ∨ w &&& 0xF000 = 0x9000) → w &&& 0x000F ≠ 0 → decode w = none) ∧
  ∀ (x y : Reg) (s : State),
    (Completes (.seReg x y) s fun t =>
      t.pc = (if (s.reg x).toNat = (s.reg y).toNat then s.pc + 4 else s.pc + 2) ∧ FrameExcept noReg [] s t) ∧
    (Completes (.sneReg x y) s fun t =>
      t.pc = (if (s.reg x).toNat = (s.reg y).toNat then s.pc + 2 else s.pc + 4) ∧ FrameExcept noReg [] s t)

/-- `Bnnn` jumps to `(V[0] + nnn) mod 4096` (40_flow.md R108). -/
def Obligations.OffsetJumpAddsV0 : Prop :=
  DecodesRow 0xF000 0xB000 (fun w => .jpV0 (nnnField w)) ∧
  ∀ (nnn : Addr) (s : State), Completes (.jpV0 nnn) s fun t =>
    t.pc.toNat = ((s.reg 0).toNat + nnn.toNat) % 4096 ∧ FrameExcept noReg [] s t

/-- A call and then a return come back to the instruction after the call with the stack pointer as before (40_flow.md R103). -/
def Obligations.CallThenReturnComesBack : Prop :=
  ∀ (nnn : Addr) (s : State), s.SP.val < 16 → ∃ t, exec (.call nnn) s = .next t ∧ Completes .ret t fun u =>
    u.pc = s.pc + 2 ∧ u.SP = s.SP ∧ (∀ j : Fin 16, j.val < s.SP.val → u.S[j] = s.S[j]) ∧ FrameExcept noReg [.stack] s u

/-! ## Register file and ALU -/

/-- `6xkk` and `8xy0` write `V[x]` and nothing else but `pc` (41_alu.md R132, R134). -/
def Obligations.LoadsWriteTheRegister : Prop :=
  DecodesRow 0xF000 0x6000 (fun w => .ldImm (regOf (xField w)) (kkField w)) ∧
  DecodesRow 0xF00F 0x8000 (fun w => .ldReg (regOf (xField w)) (regOf (yField w))) ∧
  (∀ (x : Reg) (kk : Byte) (s : State), Completes (.ldImm x kk) s fun t =>
    t.reg x = kk ∧ t.pc = s.pc + 2 ∧ FrameExcept (· = x) [] s t) ∧
  (∀ (x y : Reg) (s : State), Completes (.ldReg x y) s fun t =>
    t.reg x = s.reg y ∧ t.pc = s.pc + 2 ∧ FrameExcept (· = x) [] s t)

/-- `7xkk` adds `mod 256` and writes no flag (41_alu.md R133). -/
def Obligations.AddImmediateWraps : Prop :=
  DecodesRow 0xF000 0x7000 (fun w => .addImm (regOf (xField w)) (kkField w)) ∧
  ∀ (x : Reg) (kk : Byte) (s : State), Completes (.addImm x kk) s fun t =>
    (t.reg x).toNat = ((s.reg x).toNat + kk.toNat) % 256 ∧ t.pc = s.pc + 2 ∧ FrameExcept (· = x) [] s t

/-- `8xy1`, `8xy2`, `8xy3` are bitwise and leave `VF` alone (41_alu.md R135, R136, R137). -/
def Obligations.LogicIsBitwiseWithoutFlag : Prop :=
  DecodesRow 0xF00F 0x8001 (fun w => .orReg (regOf (xField w)) (regOf (yField w))) ∧
  DecodesRow 0xF00F 0x8002 (fun w => .andReg (regOf (xField w)) (regOf (yField w))) ∧
  DecodesRow 0xF00F 0x8003 (fun w => .xorReg (regOf (xField w)) (regOf (yField w))) ∧
  ∀ (x y : Reg) (s : State),
    (Completes (.orReg x y) s fun t =>
      (∀ b, (t.reg x).getLsbD b = ((s.reg x).getLsbD b || (s.reg y).getLsbD b)) ∧ t.pc = s.pc + 2 ∧
      FrameExcept (· = x) [] s t) ∧
    (Completes (.andReg x y) s fun t =>
      (∀ b, (t.reg x).getLsbD b = ((s.reg x).getLsbD b && (s.reg y).getLsbD b)) ∧ t.pc = s.pc + 2 ∧
      FrameExcept (· = x) [] s t) ∧
    (Completes (.xorReg x y) s fun t =>
      (∀ b, (t.reg x).getLsbD b = ((s.reg x).getLsbD b ^^ (s.reg y).getLsbD b)) ∧ t.pc = s.pc + 2 ∧
      FrameExcept (· = x) [] s t)

/-- `8xy4`: the sum `mod 256`, `VF` the carry, and the sum over the flag when `x = 0xF` (41_alu.md R138). -/
def Obligations.AddSetsCarry : Prop :=
  DecodesRow 0xF00F 0x8004 (fun w => .addReg (regOf (xField w)) (regOf (yField w))) ∧
  ∀ (x y : Reg) (s : State), Completes (.addReg x y) s fun t =>
    (t.reg x).toNat = ((s.reg x).toNat + (s.reg y).toNat) % 256 ∧
    (x ≠ 15 → (t.reg 15).toNat = if 255 < (s.reg x).toNat + (s.reg y).toNat then 1 else 0) ∧
    t.pc = s.pc + 2 ∧ FrameExcept (fun r => r = x ∨ r = 15) [] s t

/-- `8xy5` and `8xy7`: the absolute difference, `VF` set when there is no borrow; the alternative result of `SUB_MODE = wrap`
is the difference `mod 256` (41_alu.md R139, R141). -/
def Obligations.SubtractsAreAbsoluteDifferences : Prop :=
  DecodesRow 0xF00F 0x8005 (fun w => .sub (regOf (xField w)) (regOf (yField w))) ∧
  DecodesRow 0xF00F 0x8007 (fun w => .subn (regOf (xField w)) (regOf (yField w))) ∧
  subMode = .abs ∧
  (∀ a b : Byte, (subResult .wrap a b).toNat = (a.toNat + 256 - b.toNat) % 256) ∧
  ∀ (x y : Reg) (s : State),
    (Completes (.sub x y) s fun t =>
      (t.reg x).toNat = max (s.reg x).toNat (s.reg y).toNat - min (s.reg x).toNat (s.reg y).toNat ∧
      (x ≠ 15 → (t.reg 15).toNat = if (s.reg y).toNat ≤ (s.reg x).toNat then 1 else 0) ∧
      t.pc = s.pc + 2 ∧ FrameExcept (fun r => r = x ∨ r = 15) [] s t) ∧
    (Completes (.subn x y) s fun t =>
      (t.reg x).toNat = max (s.reg x).toNat (s.reg y).toNat - min (s.reg x).toNat (s.reg y).toNat ∧
      (x ≠ 15 → (t.reg 15).toNat = if (s.reg x).toNat ≤ (s.reg y).toNat then 1 else 0) ∧
      t.pc = s.pc + 2 ∧ FrameExcept (fun r => r = x ∨ r = 15) [] s t)

/-- `8xy6` and `8xyE` shift `V[x]` by one and never read `V[y]`; `VF` is the bit shifted out, in place for `8xyE` (41_alu.md
R140, R142). -/
def Obligations.ShiftsMoveOneBit : Prop :=
  DecodesRow 0xF00F 0x8006 (fun w => .shr (regOf (xField w)) (regOf (yField w))) ∧
  DecodesRow 0xF00F 0x800E (fun w => .shl (regOf (xField w)) (regOf (yField w))) ∧
  ∀ (x y : Reg) (s : State),
    (Completes (.shr x y) s fun t =>
      (t.reg x).toNat = (s.reg x).toNat / 2 ∧ (x ≠ 15 → (t.reg 15).toNat = (s.reg x).toNat % 2) ∧
      t.pc = s.pc + 2 ∧ FrameExcept (fun r => r = x ∨ r = 15) [] s t) ∧
    (Completes (.shl x y) s fun t =>
      (t.reg x).toNat = (s.reg x).toNat * 2 % 256 ∧
      (x ≠ 15 → (t.reg 15).toNat = if 128 ≤ (s.reg x).toNat then 128 else 0) ∧
      t.pc = s.pc + 2 ∧ FrameExcept (fun r => r = x ∨ r = 15) [] s t)

/-- `Cxkk` writes the cycle's random byte, whatever it is, masked by `kk` (41_alu.md R143). -/
def Obligations.RandomByteIsMasked : Prop :=
  DecodesRow 0xF000 0xC000 (fun w => .rnd (regOf (xField w)) (kkField w)) ∧
  ∀ (x : Reg) (kk : Byte) (s : State), Completes (.rnd x kk) s fun t =>
    (∀ b, (t.reg x).getLsbD b = (s.RNG.getLsbD b && kk.getLsbD b)) ∧ t.pc = s.pc + 2 ∧ FrameExcept (· = x) [] s t

/-! ## Index register and memory -/

/-- `Annn` writes `nnn` to `I` (42_index_memory.md R160). -/
def Obligations.LoadIndexWritesAddress : Prop :=
  DecodesRow 0xF000 0xA000 (fun w => .ldI (nnnField w)) ∧
  ∀ (nnn : Addr) (s : State), Completes (.ldI nnn) s fun t =>
    t.I.toNat = nnn.toNat ∧ t.pc = s.pc + 2 ∧ FrameExcept noReg [.index] s t

/-- `Fx1E` adds `V[x]` to `I` `mod 4096`; `VF` is 1 exactly when the unmasked sum exceeds `0xFFF` (42_index_memory.md R161). -/
def Obligations.AddIndexMasksAndFlags : Prop :=
  DecodesRow 0xF0FF 0xF01E (fun w => .addIVx (regOf (xField w))) ∧
  ∀ (x : Reg) (s : State), Completes (.addIVx x) s fun t =>
    t.I.toNat = (s.I.toNat + (s.reg x).toNat) % 4096 ∧
    (t.reg 15).toNat = (if 0xFFF < s.I.toNat + (s.reg x).toNat then 1 else 0) ∧
    t.pc = s.pc + 2 ∧ FrameExcept (· = 15) [.index] s t

/-- `Fx29` points `I` at the glyph, the whole byte times 5 (42_index_memory.md R162). -/
def Obligations.GlyphAddressIsFiveTimes : Prop :=
  DecodesRow 0xF0FF 0xF029 (fun w => .ldFVx (regOf (xField w))) ∧
  ∀ (x : Reg) (s : State), Completes (.ldFVx x) s fun t =>
    t.I.toNat = (s.reg x).toNat * 5 ∧ t.pc = s.pc + 2 ∧ FrameExcept noReg [.index] s t

/-- `Fx33` stores the three decimal digits at `I`, `I + 1`, `I + 2`, or raises `OutOfRange(MEMORY, 0x1000)` having written
nothing (42_index_memory.md R163). The premises on `I` and on memory are clauses of `Inv`. -/
def Obligations.DecimalDigitsAreStored : Prop :=
  DecodesRow 0xF0FF 0xF033 (fun w => .ldBVx (regOf (xField w))) ∧
  (∀ (x : Reg) (s : State), s.I.toNat ≤ 0xFFF → 0xFFF < s.I.toNat + 2 → Raises (.ldBVx x) s .memory 0x1000) ∧
  (∀ (x : Reg) (s : State), s.mem.wf = true → s.I.toNat + 2 ≤ 0xFFF → Completes (.ldBVx x) s fun t =>
    (t.mem.read s.I.toNat).toNat = (s.reg x).toNat / 100 ∧
    (t.mem.read (s.I.toNat + 1)).toNat = (s.reg x).toNat / 10 % 10 ∧
    (t.mem.read (s.I.toNat + 2)).toNat = (s.reg x).toNat % 10 ∧
    SameOutside s.I.toNat 3 s t ∧ t.pc = s.pc + 2 ∧ FrameExcept noReg [.memory] s t)

/-- `Fx55` stores `V[0]` to `V[x]` at `I`, or raises `OutOfRange(MEMORY, 0x1000)` having written nothing (42_index_memory.md
R164). The premises on `I` and on memory are clauses of `Inv`. -/
def Obligations.RegistersAreStored : Prop :=
  DecodesRow 0xF0FF 0xF055 (fun w => .ldMiVx (regOf (xField w))) ∧
  (∀ (x : Reg) (s : State), s.I.toNat ≤ 0xFFF → 0xFFF < s.I.toNat + x.val → Raises (.ldMiVx x) s .memory 0x1000) ∧
  (∀ (x : Reg) (s : State), s.mem.wf = true → s.I.toNat + x.val ≤ 0xFFF → Completes (.ldMiVx x) s fun t =>
    (∀ j : Reg, j ≤ x → t.mem.read (s.I.toNat + j.val) = s.reg j) ∧
    SameOutside s.I.toNat (x.val + 1) s t ∧ t.pc = s.pc + 2 ∧ FrameExcept noReg [.memory] s t)

/-- `Fx65` loads `V[0]` to `V[x]` from `I`, or raises `OutOfRange(MEMORY, 0x1000)` having written no register
(42_index_memory.md R165). The premise on `I` is a clause of `Inv`. -/
def Obligations.RegistersAreLoaded : Prop :=
  DecodesRow 0xF0FF 0xF065 (fun w => .ldVxMi (regOf (xField w))) ∧
  (∀ (x : Reg) (s : State), s.I.toNat ≤ 0xFFF → 0xFFF < s.I.toNat + x.val → Raises (.ldVxMi x) s .memory 0x1000) ∧
  (∀ (x : Reg) (s : State), s.I.toNat + x.val ≤ 0xFFF → Completes (.ldVxMi x) s fun t =>
    (∀ j : Reg, j ≤ x → t.reg j = s.mem.read (s.I.toNat + j.val)) ∧ t.pc = s.pc + 2 ∧ FrameExcept (· ≤ x) [] s t)

/-- Storing registers and loading them again, with the same `I`, the same `x` and nothing written between, restores them,
whatever the registers held meanwhile (42_index_memory.md R165). -/
def Obligations.StoreThenLoadRestoresRegisters : Prop :=
  ∀ (x : Reg) (s t : State) (between : Vector Byte 16),
    s.mem.wf = true → s.I.toNat + x.val ≤ 0xFFF → exec (.ldMiVx x) s = .next t →
    Completes (.ldVxMi x) { t with V := between } fun u => ∀ j : Reg, j ≤ x → u.reg j = s.reg j

/-- Each memory instruction checks its whole range first and records the lowest address past `0xFFF`, changing nothing else,
in every state (20_memory.md R55). -/
def Obligations.LowestBadAddressIsRecorded : Prop :=
  ∀ (x y : Reg) (n : Nat) (s : State),
    let lowest : Word := BitVec.ofNat 16 (max s.I.toNat 0x1000)
    (0xFFF < s.I.toNat + 2 → Raises (.ldBVx x) s .memory lowest) ∧
    (0xFFF < s.I.toNat + x.val → Raises (.ldMiVx x) s .memory lowest ∧ Raises (.ldVxMi x) s .memory lowest) ∧
    (0 < n → 0xFFF < s.I.toNat + (n - 1) → Raises (.drw x y n) s .memory lowest)

/-! ## Display -/

/-- `00E0` clears every pixel and nothing else (43_display.md R190). -/
def Obligations.ClearTurnsEveryPixelOff : Prop :=
  DecodesRow 0xF0FF 0x00E0 (fun _ => .cls) ∧
  ∀ s : State, Completes .cls s fun t =>
    (∀ x y, t.pixel x y = false) ∧ t.pc = s.pc + 2 ∧ FrameExcept noReg [.screen] s t

/-- `Dxyn` toggles exactly the pixels of the grid under a sprite bit of 1, from the wrapped origin and clipped, and `VF` is 1
exactly when one of them was set; a sprite whose bytes run past `0xFFF` raises instead (43_display.md R192 to R196). The
premise on `I` of the second clause is a clause of `Inv`. -/
def Obligations.DrawTogglesSpritePixels : Prop :=
  DecodesRow 0xF000 0xD000 (fun w => .drw (regOf (xField w)) (regOf (yField w)) (nField w).toNat) ∧
  (∀ (x y : Reg) (n : Nat) (s : State), s.I.toNat ≤ 0xFFF → 0 < n → 0xFFF < s.I.toNat + (n - 1) →
    Raises (.drw x y n) s .memory 0x1000) ∧
  ∀ (x y : Reg) (n : Nat) (s : State), (n = 0 ∨ s.I.toNat + (n - 1) ≤ 0xFFF) → Completes (.drw x y n) s fun t =>
    (∀ (cx : Fin 64) (cy : Fin 32), t.pixel cx cy = (s.pixel cx cy ^^ spriteBit s (s.reg x) (s.reg y) n cx cy)) ∧
    (Collides s (s.reg x) (s.reg y) n → t.reg 15 = 1) ∧
    (¬ Collides s (s.reg x) (s.reg y) n → t.reg 15 = 0) ∧
    t.pc = s.pc + 2 ∧ FrameExcept (· = 15) [.screen] s t

/-- The whole range of sprite bytes is checked first, clipped rows included, and an error changes no pixel and no `VF`; height 0 reads nothing, draws nothing and writes
`VF = 0`, wherever `I` points (43_display.md R197, R198). The premise on `I` is a clause of `Inv`. -/
def Obligations.DrawRangeAndHeightZero : Prop :=
  (∀ (x y : Reg) (n : Nat) (s : State), s.I.toNat ≤ 0xFFF → 0 < n → 0xFFF < s.I.toNat + (n - 1) →
    ∃ t, exec (.drw x y n) s = .next t ∧
      t.FAULT = some { error := .memory, info := 0x1000, pc := s.pc, opc := s.OPC } ∧ t.pc = s.pc ∧
      t.reg 15 = s.reg 15 ∧ FrameExcept noReg [.faultRecord] s t) ∧
  (∀ (x y : Reg) (s : State), Completes (.drw x y 0) s fun t =>
    t.reg 15 = 0 ∧ t.pc = s.pc + 2 ∧ FrameExcept (· = 15) [] s t)

/-- Drawing the same sprite at the same place twice restores every pixel, and the second draw reports a collision exactly
when the first turned a pixel on (43_display.md R199). -/
def Obligations.DrawingTwiceRestoresTheScreen : Prop :=
  ∀ (x y : Reg) (n : Nat) (s t : State),
    (n = 0 ∨ s.I.toNat + (n - 1) ≤ 0xFFF) → exec (.drw x y n) s = .next t →
    t.reg x = s.reg x → t.reg y = s.reg y →
      Completes (.drw x y n) t fun u =>
        (∀ (cx : Fin 64) (cy : Fin 32), u.pixel cx cy = s.pixel cx cy) ∧
        ((∃ (cx : Fin 64) (cy : Fin 32), s.pixel cx cy = false ∧ t.pixel cx cy = true) → u.reg 15 = 1) ∧
        ((¬ ∃ (cx : Fin 64) (cy : Fin 32), s.pixel cx cy = false ∧ t.pixel cx cy = true) → u.reg 15 = 0)

/-! ## Keys and timers -/

/-- `Ex9E` and `ExA1` skip on the key `V[x]` pressed, or not pressed; a key number above `0xF` raises
`OutOfRange(KEY_INDEX, V[x])` with no change (44_keys_timers.md R220, R221, R222). -/
def Obligations.KeySkipsTestTheKey : Prop :=
  DecodesRow 0xF0FF 0xE09E (fun w => .skp (regOf (xField w))) ∧
  DecodesRow 0xF0FF 0xE0A1 (fun w => .sknp (regOf (xField w))) ∧
  (∀ (x : Reg) (s : State), 0xF < (s.reg x).toNat →
    Raises (.skp x) s .keyIndex (BitVec.ofNat 16 (s.reg x).toNat) ∧
    Raises (.sknp x) s .keyIndex (BitVec.ofNat 16 (s.reg x).toNat)) ∧
  (∀ (x : Reg) (s : State), (s.reg x).toNat ≤ 0xF →
    (Completes (.skp x) s fun t =>
      t.pc = (if s.KEY.getLsbD (s.reg x).toNat then s.pc + 4 else s.pc + 2) ∧ FrameExcept noReg [] s t) ∧
    (Completes (.sknp x) s fun t =>
      t.pc = (if s.KEY.getLsbD (s.reg x).toNat then s.pc + 2 else s.pc + 4) ∧ FrameExcept noReg [] s t))

/-- `Fx07` reads `DT`; `Fx15` and `Fx18` write `DT` and `ST`, and leave `TREF` (44_keys_timers.md R223, R225, R226). -/
def Obligations.TimerInstructionsMoveTimers : Prop :=
  DecodesRow 0xF0FF 0xF007 (fun w => .ldVxDt (regOf (xField w))) ∧
  DecodesRow 0xF0FF 0xF015 (fun w => .ldDtVx (regOf (xField w))) ∧
  DecodesRow 0xF0FF 0xF018 (fun w => .ldStVx (regOf (xField w))) ∧
  ∀ (x : Reg) (s : State),
    (Completes (.ldVxDt x) s fun t => t.reg x = s.DT ∧ t.pc = s.pc + 2 ∧ FrameExcept (· = x) [] s t) ∧
    (Completes (.ldDtVx x) s fun t => t.DT = s.reg x ∧ t.pc = s.pc + 2 ∧ FrameExcept noReg [.delayTimer] s t) ∧
    (Completes (.ldStVx x) s fun t => t.ST = s.reg x ∧ t.pc = s.pc + 2 ∧ FrameExcept noReg [.soundTimer] s t)

/-- `Fx0A` completes while waiting on the lowest key `k` that is down now and was up at the last holding cycle; otherwise it
holds, noting the keys, with `pc` unchanged (44_keys_timers.md R224). -/
def Obligations.WaitForKeyTakesTheLowestPress : Prop :=
  DecodesRow 0xF0FF 0xF00A (fun w => .ldVxK (regOf (xField w))) ∧
  (∀ (x : Reg) (s : State) (k : Fin 16), s.WAIT = true →
    s.KEY.getLsbD k = true → s.KSNAP.getLsbD k = false →
    (∀ j : Fin 16, j < k → s.KEY.getLsbD j = true → s.KSNAP.getLsbD j = true) →
    Completes (.ldVxK x) s fun t =>
      (t.reg x).toNat = k.val ∧ t.WAIT = false ∧ t.KSNAP = 0 ∧ t.pc = s.pc + 2 ∧ FrameExcept (· = x) [.keyWait] s t) ∧
  (∀ (x : Reg) (s : State),
    (s.WAIT = true → ∀ k : Fin 16, s.KEY.getLsbD k = true → s.KSNAP.getLsbD k = true) →
    Completes (.ldVxK x) s fun t =>
      t.WAIT = true ∧ t.KSNAP = s.KEY ∧ t.pc = s.pc ∧ FrameExcept noReg [.keyWait] s t)

/-- While the host presses no further key, an `Fx0A` holds for ever: after any number of steps it still waits at the same
`pc`, with every register, memory byte and pixel as it was (44_keys_timers.md R224, 60_exceptions.md R271). -/
def Obligations.WaitLastsUntilAPress : Prop :=
  ∀ (n : Nat) (x : Reg) (s : State),
    s.FAULT = none → s.pc.toNat ≤ 0xFFE → decode s.fetchWord = some (.ldVxK x) → NoReset s → NoKeyWrite s →
    (s.WAIT = true → ∀ k : Fin 16, s.KEY.getLsbD k = true → s.KSNAP.getLsbD k = true) →
      ∃ t, core.run (n + 1) s = .next t ∧ t.WAIT = true ∧ t.pc = s.pc ∧ t.KSNAP = s.KEY ∧
        FrameExcept noReg [.delayTimer, .soundTimer, .clockReference, .opcode, .keyWait, .hostInputs] s t
end

