-- ==== Sys2Proof/Laws/Arith.lean ====
section
/-! SUPPORT. The results, flags and addresses of the instructions as numbers (spec/41_alu.md R144). -/

namespace Sys2Proof.Laws

open Sys2Proof.Machine

@[simp] theorem zext_byte_toNat (b : Byte) : b.zext.toNat = b.toNat := by
  have := b.isLt
  simp [Byte.zext]
  omega

@[simp] theorem zext_addr_toNat (a : Addr) : a.zext.toNat = a.toNat := by
  have := a.isLt
  simp [Addr.zext]
  omega

@[simp] theorem immAddr_toNat (a : Addr) : (immAddr a).toNat = a.toNat := zext_addr_toNat a

theorem addr_le (a : Addr) : a.toNat ≤ 0xFFF := by
  have := a.isLt
  omega

@[simp] theorem offsetTarget_toNat (v : Byte) (a : Addr) : (offsetTarget v a).toNat = (v.toNat + a.toNat) % 4096 := by
  simp only [offsetTarget, Config.memSize, BitVec.toNat_ofNat]
  omega

@[simp] theorem indexSumMasked_toNat (i : Word) (v : Byte) :
    (indexSumMasked i v).toNat = (i.toNat + v.toNat) % 4096 := by
  simp only [indexSumMasked, indexSum, Config.memSize, BitVec.toNat_ofNat]
  omega

@[simp] theorem glyphAddr_toNat (v : Byte) : (glyphAddr v).toNat = v.toNat * 5 := by
  have := v.isLt
  simp only [glyphAddr, Config.glyphBytes, BitVec.toNat_ofNat]
  omega

@[simp] theorem addResult_toNat (a b : Byte) : (addResult a b).toNat = (a.toNat + b.toNat) % 256 := by
  simp [addResult]

@[simp] theorem subResult_abs_toNat (a b : Byte) :
    (subResult .abs a b).toNat = max a.toNat b.toNat - min a.toNat b.toNat := by
  have := a.isLt
  have := b.isLt
  simp only [subResult, BitVec.toNat_ofNat]
  omega

@[simp] theorem subResult_wrap_toNat (a b : Byte) :
    (subResult .wrap a b).toNat = (a.toNat + 256 - b.toNat) % 256 := by
  have := a.isLt
  have := b.isLt
  simp only [subResult, BitVec.toNat_ofInt]
  omega

@[simp] theorem shrResult_toNat (a : Byte) : (shrResult a).toNat = a.toNat / 2 := by
  simp [shrResult, Nat.shiftRight_eq_div_pow]

@[simp] theorem shlResult_toNat (a : Byte) : (shlResult a).toNat = a.toNat * 2 % 256 := by
  simp [shlResult, Nat.shiftLeft_eq]

@[simp] theorem bitFlag_toNat (b : Bool) : (bitFlag b).toNat = if b then 1 else 0 := by
  cases b <;> rfl

@[simp] theorem shrFlag_toNat (a : Byte) : (shrFlag a).toNat = a.toNat % 2 := by
  simp [shrFlag, Nat.and_one_is_mod]

@[simp] theorem shlFlag_toNat (a : Byte) : (shlFlag a).toNat = if 128 ≤ a.toNat then 128 else 0 := by
  revert a
  decide

end Sys2Proof.Laws
end

