-- ==== Sys2Proof/Laws/Memory.lean ====
section
/-! SUPPORT. Memory: a read after a write, and every operation keeps the canonical form (spec/20_memory.md R51, R56). -/

namespace Sys2Proof.Laws

open Sys2Proof.Machine

/-! ## The canonical form -/

@[simp] theorem wfFrom_nil (lo : Nat) : Memory.wfFrom lo [] = true := rfl

theorem wfFrom_cons (lo a : Nat) (v : Byte) (m : Memory) :
    Memory.wfFrom lo ((a, v) :: m) = true ↔
      lo ≤ a ∧ a ≤ Config.lastAddr ∧ v ≠ Memory.initial a ∧ Memory.wfFrom (a + 1) m = true := by
  simp [Memory.wfFrom, and_assoc]

/-- A memory canonical from a higher address is canonical from a lower one. -/
theorem wfFrom_mono {lo lo' : Nat} (h : lo ≤ lo') {m : Memory} (hm : Memory.wfFrom lo' m = true) :
    Memory.wfFrom lo m = true := by
  cases m with
  | nil => rfl
  | cons c m => obtain ⟨a, v⟩ := c; rw [wfFrom_cons] at *; exact ⟨by omega, hm.2⟩

/-- Below its first address a canonical memory reads as its reset contents. -/
theorem read_below {m : Memory} : ∀ {lo a : Nat}, Memory.wfFrom lo m = true → a < lo → m.read a = Memory.initial a := by
  induction m with
  | nil => intros; rfl
  | cons c m ih =>
    obtain ⟨b, v⟩ := c
    intro lo a hm h
    rw [wfFrom_cons] at hm
    rw [Memory.read, if_neg (by omega)]
    exact ih hm.2.2.2 (by omega)

/-! ## Writing one byte -/

theorem put_wf {m : Memory} {lo a : Nat} {v : Byte} (hlo : lo ≤ a) (ha : a ≤ Config.lastAddr)
    (hm : Memory.wfFrom (a + 1) m = true) : Memory.wfFrom lo (Memory.put m a v) = true := by
  unfold Memory.put
  split
  · exact wfFrom_mono (by omega) hm
  · next h => rw [wfFrom_cons]; exact ⟨hlo, ha, h, hm⟩

theorem read_put {m : Memory} {a : Nat} {v : Byte} (hm : Memory.wfFrom (a + 1) m = true) (b : Nat) :
    (Memory.put m a v).read b = if b = a then v else m.read b := by
  unfold Memory.put
  split
  · next h =>
    split
    · next hb => rw [hb, read_below hm (by omega), h]
    · rfl
  · rw [Memory.read]
    by_cases hb : b = a
    · simp [hb]
    · rw [if_neg (Ne.symm hb), if_neg hb]

/-- Writing a byte inside memory keeps the canonical form. -/
theorem writeFrom_wf {m : Memory} : ∀ {lo a : Nat} {v : Byte}, Memory.wfFrom lo m = true → lo ≤ a → a ≤ Config.lastAddr →
    Memory.wfFrom lo (m.write a v) = true := by
  induction m with
  | nil => intro lo a v _ hlo ha; exact put_wf hlo ha rfl
  | cons c m ih =>
    obtain ⟨b, u⟩ := c
    intro lo a v hm hlo ha
    have hm' := (wfFrom_cons ..).1 hm
    rw [Memory.write]
    split
    · exact put_wf hlo ha ((wfFrom_cons ..).2 ⟨by omega, hm'.2⟩)
    · split
      · next h => subst h; exact put_wf hlo ha hm'.2.2.2
      · exact (wfFrom_cons ..).2 ⟨hm'.1, hm'.2.1, hm'.2.2.1, ih hm'.2.2.2 (by omega) ha⟩

theorem write_wf {m : Memory} {a : Nat} (v : Byte) (hm : m.wf = true) (ha : a ≤ Config.lastAddr) :
    (m.write a v).wf = true := writeFrom_wf hm (Nat.zero_le a) ha

theorem read_writeFrom {m : Memory} : ∀ {lo : Nat}, Memory.wfFrom lo m = true → ∀ (a : Nat) (v : Byte) (b : Nat),
    (m.write a v).read b = if b = a then v else m.read b := by
  induction m with
  | nil => intro lo _ a v b; exact read_put rfl b
  | cons c m ih =>
    obtain ⟨k, u⟩ := c
    intro lo hm a v b
    have hm' := (wfFrom_cons ..).1 hm
    rw [Memory.write]
    split
    · exact read_put ((wfFrom_cons ..).2 ⟨by omega, hm'.2⟩) b
    · split
      · next h =>
        subst h
        rw [read_put hm'.2.2.2, Memory.read]
        by_cases hb : b = a
        · simp [hb]
        · simp [hb, Ne.symm hb]
      · next h1 h2 =>
        rw [Memory.read, Memory.read, ih hm'.2.2.2]
        by_cases hb : b = a
        · have hk : k ≠ b := by omega
          simp [hb, hb ▸ hk]
        · by_cases hk : k = b
          · simp [hk, hb]
          · simp [hk, hb]

/-- A read after a write: the byte written there, the old byte anywhere else (20_memory.md R56). -/
theorem read_write {m : Memory} (hm : m.wf = true) (a : Nat) (v : Byte) (b : Nat) :
    (m.write a v).read b = if b = a then v else m.read b := read_writeFrom hm a v b

/-! ## Storing bytes -/

/-- Storing bytes inside memory keeps the canonical form. -/
theorem storeBytes_wf {vs : List Byte} : ∀ {m : Memory} {a : Nat}, m.wf = true → a + vs.length ≤ Config.memSize →
    (m.storeBytes a vs).wf = true := by
  induction vs with
  | nil => intro m a hm _; exact hm
  | cons v vs ih =>
    intro m a hm h
    simp only [List.length_cons, Config.memSize] at h
    exact ih (write_wf v hm (by simp [Config.lastAddr]; omega)) (by simp [Config.memSize]; omega)

/-- A read after storing bytes: the byte of that place inside the stored range, the old byte outside. -/
theorem read_storeBytes {vs : List Byte} : ∀ {m : Memory} {a : Nat}, m.wf = true → a + vs.length ≤ Config.memSize →
    ∀ b, (m.storeBytes a vs).read b = if h : a ≤ b ∧ b < a + vs.length then vs[b - a]'(by omega) else m.read b := by
  induction vs with
  | nil => intro m a _ _ b; simp [Memory.storeBytes]
  | cons v vs ih =>
    intro m a hm h b
    simp only [List.length_cons, Config.memSize] at h
    have hw : (m.write a v).wf = true := write_wf v hm (by simp [Config.lastAddr]; omega)
    rw [Memory.storeBytes, ih hw (by simp [Config.memSize]; omega) b]
    by_cases hb : b = a
    · subst hb
      simp [read_write hm]
    · by_cases hin : a + 1 ≤ b ∧ b < a + 1 + vs.length
      · have hin' : a ≤ b ∧ b < a + (v :: vs).length := by simp; omega
        rw [dif_pos hin, dif_pos hin']
        obtain ⟨k, hk⟩ : ∃ k, b - a = k + 1 := ⟨b - a - 1, by omega⟩
        have hk' : b - (a + 1) = k := by omega
        simp [hk, hk']
      · have hin' : ¬ (a ≤ b ∧ b < a + (v :: vs).length) := by simp; omega
        rw [dif_neg hin, dif_neg hin', read_write hm, if_neg hb]

/-- A word stored inside memory is read back (20_memory.md R52). -/
theorem read_storeWord {m : Memory} {a : Nat} (hm : m.wf = true) (ha : a ≤ 0xFFE) (w : Word) :
    (m.storeWord a w).read a = highByte w ∧ (m.storeWord a w).read (a + 1) = lowByte w := by
  unfold Memory.storeWord
  constructor <;> rw [read_storeBytes hm (by simp [Config.memSize]; omega)] <;> simp

/-- The two bytes of a word make the word again. -/
@[simp] theorem wordOfBytes_high_low (w : Word) : wordOfBytes (highByte w) (lowByte w) = w := by
  apply BitVec.eq_of_getLsbD_eq
  intro i hi
  simp only [wordOfBytes, highByte, lowByte, BitVec.getLsbD_append, BitVec.getLsbD_extractLsb']
  by_cases h : i < 8
  · simp [h]
  · have h' : i - 8 < 8 := by omega
    simp [h, h', show 8 + (i - 8) = i by omega]

@[simp] theorem highByte_word (a b : Byte) : highByte (wordOfBytes a b) = a := by
  apply BitVec.eq_of_getLsbD_eq
  intro i hi
  simp only [wordOfBytes, highByte, BitVec.getLsbD_extractLsb', BitVec.getLsbD_append]
  simp [hi]

@[simp] theorem lowByte_word (a b : Byte) : lowByte (wordOfBytes a b) = b := by
  apply BitVec.eq_of_getLsbD_eq
  intro i hi
  simp only [wordOfBytes, lowByte, BitVec.getLsbD_extractLsb', BitVec.getLsbD_append]
  simp [hi]

/-! ## Reset contents -/

/-- Filling cells keeps the canonical form, whatever the cells. -/
theorem fillCells_wf {cs : List Host.Cell} : ∀ {m : Memory}, m.wf = true → (Memory.fillCells m cs).wf = true := by
  induction cs with
  | nil => intro m hm; exact hm
  | cons c cs ih =>
    obtain ⟨a, v⟩ := c
    intro m hm
    rw [Memory.fillCells]
    split
    · next h => exact ih (write_wf v hm h)
    · exact ih hm

/-- A read after filling: the last cell that names the address, or the old byte. -/
theorem read_fillCells {cs : List Host.Cell} : ∀ {m : Memory}, m.wf = true → ∀ a, a ≤ Config.lastAddr →
    (Memory.fillCells m cs).read a = ((cs.reverse.find? fun c => c.1 == a).map Prod.snd).getD (m.read a) := by
  induction cs with
  | nil => intros; rfl
  | cons c cs ih =>
    obtain ⟨b, v⟩ := c
    intro m hm a ha
    have hw : (if b ≤ Config.lastAddr then m.write b v else m).wf = true := by
      split
      · next h => exact write_wf v hm h
      · exact hm
    rw [Memory.fillCells, ih hw a ha, List.reverse_cons, List.find?_append]
    cases cs.reverse.find? fun c => c.1 == a with
    | some c => simp
    | none =>
      by_cases hb : b = a
      · subst hb
        simp [ha, read_write hm]
      · have hne : ¬ a = b := fun h => hb h.symm
        by_cases hin : b ≤ Config.lastAddr <;> simp [hb, hin, hne, read_write hm]

/-- Fill and font: canonical. -/
theorem fontMemory_wf (q : ResetRequest) :
    ((Memory.fillCells [] q.fill).storeBytes Config.fontBase q.font.toList).wf = true :=
  storeBytes_wf (fillCells_wf rfl) (by simp [Config.fontBase, Config.fontBytes, Config.memSize])

/-- Memory after a reset is canonical. -/
theorem resetMemory_wf (q : ResetRequest) : (resetMemory q).wf = true := by
  refine storeBytes_wf (fontMemory_wf q) ?_
  simp only [List.length_take, Config.programBase, Config.maxImage, Config.memSize]
  omega

/-- A read of memory after a reset: the image where it lies, else the font, else the fill. -/
theorem read_resetMemory (q : ResetRequest) (a : Nat) :
    (resetMemory q).read a =
      if h : 0x200 ≤ a ∧ a < 0x200 + (q.image.take Config.maxImage).length then
        (q.image.take Config.maxImage)[a - 0x200]'(by omega)
      else if h : a < 80 then q.font[a]
      else (Memory.fillCells [] q.fill).read a := by
  have hlen : Config.programBase + (q.image.take Config.maxImage).length ≤ Config.memSize := by
    simp only [List.length_take, Config.programBase, Config.maxImage, Config.memSize]
    omega
  rw [resetMemory, read_storeBytes (fontMemory_wf q) hlen]
  congr 1
  funext _
  rw [read_storeBytes (fillCells_wf rfl) (by simp [Config.fontBase, Config.fontBytes, Config.memSize])]
  simp [Config.fontBase, Config.fontBytes]

/-- Reading one of several bytes. -/
theorem readBytes_length (m : Memory) (a n : Nat) : (m.readBytes a n).length = n := by simp [Memory.readBytes]

theorem readBytes_getElem (m : Memory) (a n r : Nat) (h : r < (m.readBytes a n).length) :
    (m.readBytes a n)[r] = m.read (a + r) := by simp [Memory.readBytes]

end Sys2Proof.Laws
end

