-- ==== Sys2Proof/Laws/State.lean ====
section
/-! SUPPORT. Each update of the state, field by field, so that no later proof unfolds a record update. -/

namespace Sys2Proof.Laws

open Sys2Proof.Machine

variable (s : State)

/-! ### setReg -/

@[simp] theorem setReg_V (x : Reg) (v : Byte) : (s.setReg x v).V = s.V.set x v := rfl
@[simp] theorem setReg_I (x : Reg) (v : Byte) : (s.setReg x v).I = s.I := rfl
@[simp] theorem setReg_pc (x : Reg) (v : Byte) : (s.setReg x v).pc = s.pc := rfl
@[simp] theorem setReg_S (x : Reg) (v : Byte) : (s.setReg x v).S = s.S := rfl
@[simp] theorem setReg_SP (x : Reg) (v : Byte) : (s.setReg x v).SP = s.SP := rfl
@[simp] theorem setReg_DT (x : Reg) (v : Byte) : (s.setReg x v).DT = s.DT := rfl
@[simp] theorem setReg_ST (x : Reg) (v : Byte) : (s.setReg x v).ST = s.ST := rfl
@[simp] theorem setReg_mem (x : Reg) (v : Byte) : (s.setReg x v).mem = s.mem := rfl
@[simp] theorem setReg_FB (x : Reg) (v : Byte) : (s.setReg x v).FB = s.FB := rfl
@[simp] theorem setReg_KEY (x : Reg) (v : Byte) : (s.setReg x v).KEY = s.KEY := rfl
@[simp] theorem setReg_OPC (x : Reg) (v : Byte) : (s.setReg x v).OPC = s.OPC := rfl
@[simp] theorem setReg_WAIT (x : Reg) (v : Byte) : (s.setReg x v).WAIT = s.WAIT := rfl
@[simp] theorem setReg_KSNAP (x : Reg) (v : Byte) : (s.setReg x v).KSNAP = s.KSNAP := rfl
@[simp] theorem setReg_TREF (x : Reg) (v : Byte) : (s.setReg x v).TREF = s.TREF := rfl
@[simp] theorem setReg_FAULT (x : Reg) (v : Byte) : (s.setReg x v).FAULT = s.FAULT := rfl
@[simp] theorem setReg_TICKS (x : Reg) (v : Byte) : (s.setReg x v).TICKS = s.TICKS := rfl
@[simp] theorem setReg_RNG (x : Reg) (v : Byte) : (s.setReg x v).RNG = s.RNG := rfl
@[simp] theorem setReg_inputs (x : Reg) (v : Byte) : (s.setReg x v).inputs = s.inputs := rfl
@[simp] theorem setReg_cycles (x : Reg) (v : Byte) : (s.setReg x v).cycles = s.cycles := rfl

/-! ### setFlag -/

@[simp] theorem setFlag_V (v : Byte) : (s.setFlag v).V = s.V.set flagReg v := rfl
@[simp] theorem setFlag_I (v : Byte) : (s.setFlag v).I = s.I := rfl
@[simp] theorem setFlag_pc (v : Byte) : (s.setFlag v).pc = s.pc := rfl
@[simp] theorem setFlag_S (v : Byte) : (s.setFlag v).S = s.S := rfl
@[simp] theorem setFlag_SP (v : Byte) : (s.setFlag v).SP = s.SP := rfl
@[simp] theorem setFlag_DT (v : Byte) : (s.setFlag v).DT = s.DT := rfl
@[simp] theorem setFlag_ST (v : Byte) : (s.setFlag v).ST = s.ST := rfl
@[simp] theorem setFlag_mem (v : Byte) : (s.setFlag v).mem = s.mem := rfl
@[simp] theorem setFlag_FB (v : Byte) : (s.setFlag v).FB = s.FB := rfl
@[simp] theorem setFlag_KEY (v : Byte) : (s.setFlag v).KEY = s.KEY := rfl
@[simp] theorem setFlag_OPC (v : Byte) : (s.setFlag v).OPC = s.OPC := rfl
@[simp] theorem setFlag_WAIT (v : Byte) : (s.setFlag v).WAIT = s.WAIT := rfl
@[simp] theorem setFlag_KSNAP (v : Byte) : (s.setFlag v).KSNAP = s.KSNAP := rfl
@[simp] theorem setFlag_TREF (v : Byte) : (s.setFlag v).TREF = s.TREF := rfl
@[simp] theorem setFlag_FAULT (v : Byte) : (s.setFlag v).FAULT = s.FAULT := rfl
@[simp] theorem setFlag_TICKS (v : Byte) : (s.setFlag v).TICKS = s.TICKS := rfl
@[simp] theorem setFlag_RNG (v : Byte) : (s.setFlag v).RNG = s.RNG := rfl
@[simp] theorem setFlag_inputs (v : Byte) : (s.setFlag v).inputs = s.inputs := rfl
@[simp] theorem setFlag_cycles (v : Byte) : (s.setFlag v).cycles = s.cycles := rfl

/-! ### advance -/

@[simp] theorem advance_V : (s.advance).V = s.V := rfl
@[simp] theorem advance_I : (s.advance).I = s.I := rfl
@[simp] theorem advance_pc : (s.advance).pc = s.pc + 2 := rfl
@[simp] theorem advance_S : (s.advance).S = s.S := rfl
@[simp] theorem advance_SP : (s.advance).SP = s.SP := rfl
@[simp] theorem advance_DT : (s.advance).DT = s.DT := rfl
@[simp] theorem advance_ST : (s.advance).ST = s.ST := rfl
@[simp] theorem advance_mem : (s.advance).mem = s.mem := rfl
@[simp] theorem advance_FB : (s.advance).FB = s.FB := rfl
@[simp] theorem advance_KEY : (s.advance).KEY = s.KEY := rfl
@[simp] theorem advance_OPC : (s.advance).OPC = s.OPC := rfl
@[simp] theorem advance_WAIT : (s.advance).WAIT = s.WAIT := rfl
@[simp] theorem advance_KSNAP : (s.advance).KSNAP = s.KSNAP := rfl
@[simp] theorem advance_TREF : (s.advance).TREF = s.TREF := rfl
@[simp] theorem advance_FAULT : (s.advance).FAULT = s.FAULT := rfl
@[simp] theorem advance_TICKS : (s.advance).TICKS = s.TICKS := rfl
@[simp] theorem advance_RNG : (s.advance).RNG = s.RNG := rfl
@[simp] theorem advance_inputs : (s.advance).inputs = s.inputs := rfl
@[simp] theorem advance_cycles : (s.advance).cycles = s.cycles := rfl

/-! ### skipIf -/

@[simp] theorem skipIf_V (c : Bool) : (s.skipIf c).V = s.V := rfl
@[simp] theorem skipIf_I (c : Bool) : (s.skipIf c).I = s.I := rfl
@[simp] theorem skipIf_pc (c : Bool) : (s.skipIf c).pc = s.pc + if c then 4 else 2 := rfl
@[simp] theorem skipIf_S (c : Bool) : (s.skipIf c).S = s.S := rfl
@[simp] theorem skipIf_SP (c : Bool) : (s.skipIf c).SP = s.SP := rfl
@[simp] theorem skipIf_DT (c : Bool) : (s.skipIf c).DT = s.DT := rfl
@[simp] theorem skipIf_ST (c : Bool) : (s.skipIf c).ST = s.ST := rfl
@[simp] theorem skipIf_mem (c : Bool) : (s.skipIf c).mem = s.mem := rfl
@[simp] theorem skipIf_FB (c : Bool) : (s.skipIf c).FB = s.FB := rfl
@[simp] theorem skipIf_KEY (c : Bool) : (s.skipIf c).KEY = s.KEY := rfl
@[simp] theorem skipIf_OPC (c : Bool) : (s.skipIf c).OPC = s.OPC := rfl
@[simp] theorem skipIf_WAIT (c : Bool) : (s.skipIf c).WAIT = s.WAIT := rfl
@[simp] theorem skipIf_KSNAP (c : Bool) : (s.skipIf c).KSNAP = s.KSNAP := rfl
@[simp] theorem skipIf_TREF (c : Bool) : (s.skipIf c).TREF = s.TREF := rfl
@[simp] theorem skipIf_FAULT (c : Bool) : (s.skipIf c).FAULT = s.FAULT := rfl
@[simp] theorem skipIf_TICKS (c : Bool) : (s.skipIf c).TICKS = s.TICKS := rfl
@[simp] theorem skipIf_RNG (c : Bool) : (s.skipIf c).RNG = s.RNG := rfl
@[simp] theorem skipIf_inputs (c : Bool) : (s.skipIf c).inputs = s.inputs := rfl
@[simp] theorem skipIf_cycles (c : Bool) : (s.skipIf c).cycles = s.cycles := rfl

/-! ### jump -/

@[simp] theorem jump_V (a : Word) : (s.jump a).V = s.V := rfl
@[simp] theorem jump_I (a : Word) : (s.jump a).I = s.I := rfl
@[simp] theorem jump_pc (a : Word) : (s.jump a).pc = a := rfl
@[simp] theorem jump_S (a : Word) : (s.jump a).S = s.S := rfl
@[simp] theorem jump_SP (a : Word) : (s.jump a).SP = s.SP := rfl
@[simp] theorem jump_DT (a : Word) : (s.jump a).DT = s.DT := rfl
@[simp] theorem jump_ST (a : Word) : (s.jump a).ST = s.ST := rfl
@[simp] theorem jump_mem (a : Word) : (s.jump a).mem = s.mem := rfl
@[simp] theorem jump_FB (a : Word) : (s.jump a).FB = s.FB := rfl
@[simp] theorem jump_KEY (a : Word) : (s.jump a).KEY = s.KEY := rfl
@[simp] theorem jump_OPC (a : Word) : (s.jump a).OPC = s.OPC := rfl
@[simp] theorem jump_WAIT (a : Word) : (s.jump a).WAIT = s.WAIT := rfl
@[simp] theorem jump_KSNAP (a : Word) : (s.jump a).KSNAP = s.KSNAP := rfl
@[simp] theorem jump_TREF (a : Word) : (s.jump a).TREF = s.TREF := rfl
@[simp] theorem jump_FAULT (a : Word) : (s.jump a).FAULT = s.FAULT := rfl
@[simp] theorem jump_TICKS (a : Word) : (s.jump a).TICKS = s.TICKS := rfl
@[simp] theorem jump_RNG (a : Word) : (s.jump a).RNG = s.RNG := rfl
@[simp] theorem jump_inputs (a : Word) : (s.jump a).inputs = s.inputs := rfl
@[simp] theorem jump_cycles (a : Word) : (s.jump a).cycles = s.cycles := rfl

/-! ### setIndex -/

@[simp] theorem setIndex_V (v : Word) : (s.setIndex v).V = s.V := rfl
@[simp] theorem setIndex_I (v : Word) : (s.setIndex v).I = v := rfl
@[simp] theorem setIndex_pc (v : Word) : (s.setIndex v).pc = s.pc := rfl
@[simp] theorem setIndex_S (v : Word) : (s.setIndex v).S = s.S := rfl
@[simp] theorem setIndex_SP (v : Word) : (s.setIndex v).SP = s.SP := rfl
@[simp] theorem setIndex_DT (v : Word) : (s.setIndex v).DT = s.DT := rfl
@[simp] theorem setIndex_ST (v : Word) : (s.setIndex v).ST = s.ST := rfl
@[simp] theorem setIndex_mem (v : Word) : (s.setIndex v).mem = s.mem := rfl
@[simp] theorem setIndex_FB (v : Word) : (s.setIndex v).FB = s.FB := rfl
@[simp] theorem setIndex_KEY (v : Word) : (s.setIndex v).KEY = s.KEY := rfl
@[simp] theorem setIndex_OPC (v : Word) : (s.setIndex v).OPC = s.OPC := rfl
@[simp] theorem setIndex_WAIT (v : Word) : (s.setIndex v).WAIT = s.WAIT := rfl
@[simp] theorem setIndex_KSNAP (v : Word) : (s.setIndex v).KSNAP = s.KSNAP := rfl
@[simp] theorem setIndex_TREF (v : Word) : (s.setIndex v).TREF = s.TREF := rfl
@[simp] theorem setIndex_FAULT (v : Word) : (s.setIndex v).FAULT = s.FAULT := rfl
@[simp] theorem setIndex_TICKS (v : Word) : (s.setIndex v).TICKS = s.TICKS := rfl
@[simp] theorem setIndex_RNG (v : Word) : (s.setIndex v).RNG = s.RNG := rfl
@[simp] theorem setIndex_inputs (v : Word) : (s.setIndex v).inputs = s.inputs := rfl
@[simp] theorem setIndex_cycles (v : Word) : (s.setIndex v).cycles = s.cycles := rfl

/-! ### raise -/

@[simp] theorem raise_V (e : ErrorKind) (v : Word) : (s.raise e v).V = s.V := rfl
@[simp] theorem raise_I (e : ErrorKind) (v : Word) : (s.raise e v).I = s.I := rfl
@[simp] theorem raise_pc (e : ErrorKind) (v : Word) : (s.raise e v).pc = s.pc := rfl
@[simp] theorem raise_S (e : ErrorKind) (v : Word) : (s.raise e v).S = s.S := rfl
@[simp] theorem raise_SP (e : ErrorKind) (v : Word) : (s.raise e v).SP = s.SP := rfl
@[simp] theorem raise_DT (e : ErrorKind) (v : Word) : (s.raise e v).DT = s.DT := rfl
@[simp] theorem raise_ST (e : ErrorKind) (v : Word) : (s.raise e v).ST = s.ST := rfl
@[simp] theorem raise_mem (e : ErrorKind) (v : Word) : (s.raise e v).mem = s.mem := rfl
@[simp] theorem raise_FB (e : ErrorKind) (v : Word) : (s.raise e v).FB = s.FB := rfl
@[simp] theorem raise_KEY (e : ErrorKind) (v : Word) : (s.raise e v).KEY = s.KEY := rfl
@[simp] theorem raise_OPC (e : ErrorKind) (v : Word) : (s.raise e v).OPC = s.OPC := rfl
@[simp] theorem raise_WAIT (e : ErrorKind) (v : Word) : (s.raise e v).WAIT = s.WAIT := rfl
@[simp] theorem raise_KSNAP (e : ErrorKind) (v : Word) : (s.raise e v).KSNAP = s.KSNAP := rfl
@[simp] theorem raise_TREF (e : ErrorKind) (v : Word) : (s.raise e v).TREF = s.TREF := rfl
@[simp] theorem raise_FAULT (e : ErrorKind) (v : Word) : (s.raise e v).FAULT = some { error := e, info := v, pc := s.pc, opc := s.OPC } := rfl
@[simp] theorem raise_TICKS (e : ErrorKind) (v : Word) : (s.raise e v).TICKS = s.TICKS := rfl
@[simp] theorem raise_RNG (e : ErrorKind) (v : Word) : (s.raise e v).RNG = s.RNG := rfl
@[simp] theorem raise_inputs (e : ErrorKind) (v : Word) : (s.raise e v).inputs = s.inputs := rfl
@[simp] theorem raise_cycles (e : ErrorKind) (v : Word) : (s.raise e v).cycles = s.cycles := rfl

/-! ### loadRegsUpTo -/

@[simp] theorem loadRegsUpTo_V (x : Reg) : (s.loadRegsUpTo x).V = Vector.ofFn fun i => if i ≤ x then s.mem.read (s.I.toNat + i.val) else s.reg i := rfl
@[simp] theorem loadRegsUpTo_I (x : Reg) : (s.loadRegsUpTo x).I = s.I := rfl
@[simp] theorem loadRegsUpTo_pc (x : Reg) : (s.loadRegsUpTo x).pc = s.pc := rfl
@[simp] theorem loadRegsUpTo_S (x : Reg) : (s.loadRegsUpTo x).S = s.S := rfl
@[simp] theorem loadRegsUpTo_SP (x : Reg) : (s.loadRegsUpTo x).SP = s.SP := rfl
@[simp] theorem loadRegsUpTo_DT (x : Reg) : (s.loadRegsUpTo x).DT = s.DT := rfl
@[simp] theorem loadRegsUpTo_ST (x : Reg) : (s.loadRegsUpTo x).ST = s.ST := rfl
@[simp] theorem loadRegsUpTo_mem (x : Reg) : (s.loadRegsUpTo x).mem = s.mem := rfl
@[simp] theorem loadRegsUpTo_FB (x : Reg) : (s.loadRegsUpTo x).FB = s.FB := rfl
@[simp] theorem loadRegsUpTo_KEY (x : Reg) : (s.loadRegsUpTo x).KEY = s.KEY := rfl
@[simp] theorem loadRegsUpTo_OPC (x : Reg) : (s.loadRegsUpTo x).OPC = s.OPC := rfl
@[simp] theorem loadRegsUpTo_WAIT (x : Reg) : (s.loadRegsUpTo x).WAIT = s.WAIT := rfl
@[simp] theorem loadRegsUpTo_KSNAP (x : Reg) : (s.loadRegsUpTo x).KSNAP = s.KSNAP := rfl
@[simp] theorem loadRegsUpTo_TREF (x : Reg) : (s.loadRegsUpTo x).TREF = s.TREF := rfl
@[simp] theorem loadRegsUpTo_FAULT (x : Reg) : (s.loadRegsUpTo x).FAULT = s.FAULT := rfl
@[simp] theorem loadRegsUpTo_TICKS (x : Reg) : (s.loadRegsUpTo x).TICKS = s.TICKS := rfl
@[simp] theorem loadRegsUpTo_RNG (x : Reg) : (s.loadRegsUpTo x).RNG = s.RNG := rfl
@[simp] theorem loadRegsUpTo_inputs (x : Reg) : (s.loadRegsUpTo x).inputs = s.inputs := rfl
@[simp] theorem loadRegsUpTo_cycles (x : Reg) : (s.loadRegsUpTo x).cycles = s.cycles := rfl

/-! ### holdForKey -/

@[simp] theorem holdForKey_V : (s.holdForKey).V = s.V := rfl
@[simp] theorem holdForKey_I : (s.holdForKey).I = s.I := rfl
@[simp] theorem holdForKey_pc : (s.holdForKey).pc = s.pc := rfl
@[simp] theorem holdForKey_S : (s.holdForKey).S = s.S := rfl
@[simp] theorem holdForKey_SP : (s.holdForKey).SP = s.SP := rfl
@[simp] theorem holdForKey_DT : (s.holdForKey).DT = s.DT := rfl
@[simp] theorem holdForKey_ST : (s.holdForKey).ST = s.ST := rfl
@[simp] theorem holdForKey_mem : (s.holdForKey).mem = s.mem := rfl
@[simp] theorem holdForKey_FB : (s.holdForKey).FB = s.FB := rfl
@[simp] theorem holdForKey_KEY : (s.holdForKey).KEY = s.KEY := rfl
@[simp] theorem holdForKey_OPC : (s.holdForKey).OPC = s.OPC := rfl
@[simp] theorem holdForKey_WAIT : (s.holdForKey).WAIT = true := rfl
@[simp] theorem holdForKey_KSNAP : (s.holdForKey).KSNAP = s.KEY := rfl
@[simp] theorem holdForKey_TREF : (s.holdForKey).TREF = s.TREF := rfl
@[simp] theorem holdForKey_FAULT : (s.holdForKey).FAULT = s.FAULT := rfl
@[simp] theorem holdForKey_TICKS : (s.holdForKey).TICKS = s.TICKS := rfl
@[simp] theorem holdForKey_RNG : (s.holdForKey).RNG = s.RNG := rfl
@[simp] theorem holdForKey_inputs : (s.holdForKey).inputs = s.inputs := rfl
@[simp] theorem holdForKey_cycles : (s.holdForKey).cycles = s.cycles := rfl

/-! ### tickBy -/

@[simp] theorem tickBy_V (k : Nat) : (s.tickBy k).V = s.V := rfl
@[simp] theorem tickBy_I (k : Nat) : (s.tickBy k).I = s.I := rfl
@[simp] theorem tickBy_pc (k : Nat) : (s.tickBy k).pc = s.pc := rfl
@[simp] theorem tickBy_S (k : Nat) : (s.tickBy k).S = s.S := rfl
@[simp] theorem tickBy_SP (k : Nat) : (s.tickBy k).SP = s.SP := rfl
@[simp] theorem tickBy_DT (k : Nat) : (s.tickBy k).DT = decayed s.DT k := rfl
@[simp] theorem tickBy_ST (k : Nat) : (s.tickBy k).ST = decayed s.ST k := rfl
@[simp] theorem tickBy_mem (k : Nat) : (s.tickBy k).mem = s.mem := rfl
@[simp] theorem tickBy_FB (k : Nat) : (s.tickBy k).FB = s.FB := rfl
@[simp] theorem tickBy_KEY (k : Nat) : (s.tickBy k).KEY = s.KEY := rfl
@[simp] theorem tickBy_OPC (k : Nat) : (s.tickBy k).OPC = s.OPC := rfl
@[simp] theorem tickBy_WAIT (k : Nat) : (s.tickBy k).WAIT = s.WAIT := rfl
@[simp] theorem tickBy_KSNAP (k : Nat) : (s.tickBy k).KSNAP = s.KSNAP := rfl
@[simp] theorem tickBy_TREF (k : Nat) : (s.tickBy k).TREF = s.TREF + k := rfl
@[simp] theorem tickBy_FAULT (k : Nat) : (s.tickBy k).FAULT = s.FAULT := rfl
@[simp] theorem tickBy_TICKS (k : Nat) : (s.tickBy k).TICKS = s.TICKS := rfl
@[simp] theorem tickBy_RNG (k : Nat) : (s.tickBy k).RNG = s.RNG := rfl
@[simp] theorem tickBy_inputs (k : Nat) : (s.tickBy k).inputs = s.inputs := rfl
@[simp] theorem tickBy_cycles (k : Nat) : (s.tickBy k).cycles = s.cycles := rfl

/-! ### fetched -/

@[simp] theorem fetched_V : (s.fetched).V = s.V := rfl
@[simp] theorem fetched_I : (s.fetched).I = s.I := rfl
@[simp] theorem fetched_pc : (s.fetched).pc = s.pc := rfl
@[simp] theorem fetched_S : (s.fetched).S = s.S := rfl
@[simp] theorem fetched_SP : (s.fetched).SP = s.SP := rfl
@[simp] theorem fetched_DT : (s.fetched).DT = s.DT := rfl
@[simp] theorem fetched_ST : (s.fetched).ST = s.ST := rfl
@[simp] theorem fetched_mem : (s.fetched).mem = s.mem := rfl
@[simp] theorem fetched_FB : (s.fetched).FB = s.FB := rfl
@[simp] theorem fetched_KEY : (s.fetched).KEY = s.KEY := rfl
@[simp] theorem fetched_OPC : (s.fetched).OPC = s.fetchWord := rfl
@[simp] theorem fetched_WAIT : (s.fetched).WAIT = s.WAIT := rfl
@[simp] theorem fetched_KSNAP : (s.fetched).KSNAP = s.KSNAP := rfl
@[simp] theorem fetched_TREF : (s.fetched).TREF = s.TREF := rfl
@[simp] theorem fetched_FAULT : (s.fetched).FAULT = s.FAULT := rfl
@[simp] theorem fetched_TICKS : (s.fetched).TICKS = s.TICKS := rfl
@[simp] theorem fetched_RNG : (s.fetched).RNG = s.RNG := rfl
@[simp] theorem fetched_inputs : (s.fetched).inputs = s.inputs := rfl
@[simp] theorem fetched_cycles : (s.fetched).cycles = s.cycles := rfl

/-! ### resetWith -/

@[simp] theorem resetWith_V (q : ResetRequest) : (State.resetWith q).V = Vector.replicate 16 0 := rfl
@[simp] theorem resetWith_I (q : ResetRequest) : (State.resetWith q).I = 0 := rfl
@[simp] theorem resetWith_pc (q : ResetRequest) : (State.resetWith q).pc = 0x200 := rfl
@[simp] theorem resetWith_S (q : ResetRequest) : (State.resetWith q).S = Vector.replicate 16 0 := rfl
@[simp] theorem resetWith_SP (q : ResetRequest) : (State.resetWith q).SP = 0 := rfl
@[simp] theorem resetWith_DT (q : ResetRequest) : (State.resetWith q).DT = 0 := rfl
@[simp] theorem resetWith_ST (q : ResetRequest) : (State.resetWith q).ST = 0 := rfl
@[simp] theorem resetWith_mem (q : ResetRequest) : (State.resetWith q).mem = resetMemory q := rfl
@[simp] theorem resetWith_FB (q : ResetRequest) : (State.resetWith q).FB = Vector.replicate 32 0 := rfl
@[simp] theorem resetWith_KEY (q : ResetRequest) : (State.resetWith q).KEY = 0 := rfl
@[simp] theorem resetWith_OPC (q : ResetRequest) : (State.resetWith q).OPC = 0 := rfl
@[simp] theorem resetWith_WAIT (q : ResetRequest) : (State.resetWith q).WAIT = false := rfl
@[simp] theorem resetWith_KSNAP (q : ResetRequest) : (State.resetWith q).KSNAP = 0 := rfl
@[simp] theorem resetWith_TREF (q : ResetRequest) : (State.resetWith q).TREF = 0 := rfl
@[simp] theorem resetWith_FAULT (q : ResetRequest) : (State.resetWith q).FAULT = none := rfl
@[simp] theorem resetWith_TICKS (q : ResetRequest) : (State.resetWith q).TICKS = 0 := rfl
@[simp] theorem resetWith_RNG (q : ResetRequest) : (State.resetWith q).RNG = 0 := rfl
@[simp] theorem resetWith_inputs (q : ResetRequest) : (State.resetWith q).inputs = [] := rfl
@[simp] theorem resetWith_cycles (q : ResetRequest) : (State.resetWith q).cycles = 0 := rfl

/-! ### hostReset -/

@[simp] theorem hostReset_V (q : ResetRequest) : (s.hostReset q).V = Vector.replicate 16 0 := rfl
@[simp] theorem hostReset_I (q : ResetRequest) : (s.hostReset q).I = 0 := rfl
@[simp] theorem hostReset_pc (q : ResetRequest) : (s.hostReset q).pc = 0x200 := rfl
@[simp] theorem hostReset_S (q : ResetRequest) : (s.hostReset q).S = Vector.replicate 16 0 := rfl
@[simp] theorem hostReset_SP (q : ResetRequest) : (s.hostReset q).SP = 0 := rfl
@[simp] theorem hostReset_DT (q : ResetRequest) : (s.hostReset q).DT = 0 := rfl
@[simp] theorem hostReset_ST (q : ResetRequest) : (s.hostReset q).ST = 0 := rfl
@[simp] theorem hostReset_mem (q : ResetRequest) : (s.hostReset q).mem = resetMemory q := rfl
@[simp] theorem hostReset_FB (q : ResetRequest) : (s.hostReset q).FB = Vector.replicate 32 0 := rfl
@[simp] theorem hostReset_KEY (q : ResetRequest) : (s.hostReset q).KEY = 0 := rfl
@[simp] theorem hostReset_OPC (q : ResetRequest) : (s.hostReset q).OPC = 0 := rfl
@[simp] theorem hostReset_WAIT (q : ResetRequest) : (s.hostReset q).WAIT = false := rfl
@[simp] theorem hostReset_KSNAP (q : ResetRequest) : (s.hostReset q).KSNAP = 0 := rfl
@[simp] theorem hostReset_TREF (q : ResetRequest) : (s.hostReset q).TREF = 0 := rfl
@[simp] theorem hostReset_FAULT (q : ResetRequest) : (s.hostReset q).FAULT = none := rfl
@[simp] theorem hostReset_TICKS (q : ResetRequest) : (s.hostReset q).TICKS = s.TICKS := rfl
@[simp] theorem hostReset_RNG (q : ResetRequest) : (s.hostReset q).RNG = s.RNG := rfl
@[simp] theorem hostReset_inputs (q : ResetRequest) : (s.hostReset q).inputs = s.inputs := rfl
@[simp] theorem hostReset_cycles (q : ResetRequest) : (s.hostReset q).cycles = s.cycles := rfl

/-! ### receive: the fields that do not depend on whether the host resets -/

@[simp] theorem receive_TICKS : s.receive.TICKS = s.nextInput.ticks := rfl
@[simp] theorem receive_RNG : s.receive.RNG = s.nextInput.rng := rfl
@[simp] theorem receive_inputs : s.receive.inputs = s.inputs.tail := rfl
@[simp] theorem receive_cycles : s.receive.cycles = s.cycles + 1 := rfl
@[simp] theorem receive_KEY : s.receive.KEY = s.nextInput.keys.getD (s.maybeReset s.nextInput.reset).KEY := rfl

/-! ### receive: the other fields are those after the reset, if there is one -/

theorem receive_V : s.receive.V = (s.maybeReset s.nextInput.reset).V := rfl
theorem receive_I : s.receive.I = (s.maybeReset s.nextInput.reset).I := rfl
theorem receive_pc : s.receive.pc = (s.maybeReset s.nextInput.reset).pc := rfl
theorem receive_S : s.receive.S = (s.maybeReset s.nextInput.reset).S := rfl
theorem receive_SP : s.receive.SP = (s.maybeReset s.nextInput.reset).SP := rfl
theorem receive_DT : s.receive.DT = (s.maybeReset s.nextInput.reset).DT := rfl
theorem receive_ST : s.receive.ST = (s.maybeReset s.nextInput.reset).ST := rfl
theorem receive_mem : s.receive.mem = (s.maybeReset s.nextInput.reset).mem := rfl
theorem receive_FB : s.receive.FB = (s.maybeReset s.nextInput.reset).FB := rfl
theorem receive_OPC : s.receive.OPC = (s.maybeReset s.nextInput.reset).OPC := rfl
theorem receive_WAIT : s.receive.WAIT = (s.maybeReset s.nextInput.reset).WAIT := rfl
theorem receive_KSNAP : s.receive.KSNAP = (s.maybeReset s.nextInput.reset).KSNAP := rfl
theorem receive_TREF : s.receive.TREF = (s.maybeReset s.nextInput.reset).TREF := rfl
theorem receive_FAULT : s.receive.FAULT = (s.maybeReset s.nextInput.reset).FAULT := rfl

@[simp] theorem maybeReset_none : s.maybeReset none = s := rfl
@[simp] theorem maybeReset_some (q : ResetRequest) : s.maybeReset (some q) = s.hostReset q := rfl

/-! ### Compositions, in terms of the updates above -/

@[simp] theorem setFlag_eq (v : Byte) : s.setFlag v = s.setReg flagReg v := rfl
@[simp] theorem writeResult_eq (x : Reg) (v : Byte) : s.writeResult x v = (s.setReg x v).advance := rfl
@[simp] theorem writeFlagged_eq (x : Reg) (f v : Byte) :
    s.writeFlagged x f v = ((s.setReg flagReg f).setReg x v).advance := rfl
@[simp] theorem timerTick_eq : s.timerTick = s.tickBy s.TICKS := rfl

/-! ### Reading a register -/

theorem reg_eq (x : Reg) : s.reg x = s.V[x] := rfl

/-- Reading after writing a register: the value written there, the old one elsewhere. -/
@[simp] theorem reg_setReg (x y : Reg) (v : Byte) : (s.setReg x v).reg y = if y = x then v else s.reg y := by
  simp only [State.reg, State.setReg, Fin.getElem_fin, Vector.getElem_set, Fin.ext_iff]
  by_cases h : y.val = x.val
  · simp [h]
  · simp [h, Ne.symm h]

@[simp] theorem reg_advance (x : Reg) : s.advance.reg x = s.reg x := rfl
@[simp] theorem reg_skipIf (c : Bool) (x : Reg) : (s.skipIf c).reg x = s.reg x := rfl
@[simp] theorem reg_jump (a : Word) (x : Reg) : (s.jump a).reg x = s.reg x := rfl
@[simp] theorem reg_setIndex (v : Word) (x : Reg) : (s.setIndex v).reg x = s.reg x := rfl
@[simp] theorem reg_raise (e : ErrorKind) (v : Word) (x : Reg) : (s.raise e v).reg x = s.reg x := rfl
@[simp] theorem reg_holdForKey (x : Reg) : s.holdForKey.reg x = s.reg x := rfl
@[simp] theorem reg_tickBy (k : Nat) (x : Reg) : (s.tickBy k).reg x = s.reg x := rfl
@[simp] theorem reg_fetched (x : Reg) : s.fetched.reg x = s.reg x := rfl

/-- A loaded block: the bytes from `I` up to register `x`, the old registers above. -/
@[simp] theorem reg_loadRegsUpTo (x y : Reg) :
    (s.loadRegsUpTo x).reg y = if y ≤ x then s.mem.read (s.I.toNat + y.val) else s.reg y := by
  simp [State.reg, State.loadRegsUpTo]

/-- Every register of a reset state is 0. -/
@[simp] theorem reg_hostReset (q : ResetRequest) (x : Reg) : (s.hostReset q).reg x = 0 := by
  simp [State.reg, Fin.getElem_fin]

end Sys2Proof.Laws
end

