-- ==== Sys2Proof/Laws/Ops.lean ====
section
/-! SUPPORT. What each shared operation can do, said once: the stack, the memory range check, the key number, the timers. -/

namespace Sys2Proof.Laws

open Sys2Proof.Machine

variable (s : State)

/-! ## The stack (spec/10_state.md R26) -/

theorem pushJump_free (v target info : Word) (h : s.SP.val < 16) :
    s.pushJump v target info =
      ({ s with S := s.S.set s.SP.val v h, SP := ⟨s.SP.val + 1, by omega⟩ } : State).jump target := by
  simp [State.pushJump, h]

theorem pushJump_full (v target info : Word) (h : s.SP.val = 16) :
    s.pushJump v target info = s.raise .stackOverflow info := by
  simp [State.pushJump, h]

theorem popJump_some (h : 0 < s.SP.val) :
    s.popJump = ({ s with SP := ⟨s.SP.val - 1, by omega⟩ } : State).jump (s.S[s.SP.val - 1]'(by omega)) := by
  simp [State.popJump, h]

theorem popJump_empty (h : s.SP.val = 0) : s.popJump = s.raise .stackUnderflow 0 := by
  simp [State.popJump, h]

/-! ## The memory range check (spec/20_memory.md R55) -/

theorem lowestOutOfRange_none {first count : Nat} (h : count = 0 ∨ first + count ≤ 4096) :
    lowestOutOfRange first count = none := by
  unfold lowestOutOfRange
  rw [if_pos (by simp only [Config.memSize]; omega)]

theorem lowestOutOfRange_some {first count : Nat} (hc : 0 < count) (h : 4096 < first + count) :
    lowestOutOfRange first count = some (BitVec.ofNat 16 (max first 4096)) := by
  unfold lowestOutOfRange
  rw [if_neg (by simp only [Config.memSize]; omega)]

theorem accessing_inside {count : Nat} (t : State) (h : count = 0 ∨ s.I.toNat + count ≤ 4096) :
    s.accessing count t = t := by
  simp [State.accessing, lowestOutOfRange_none h]

theorem accessing_outside {count : Nat} (t : State) (hc : 0 < count) (h : 4096 < s.I.toNat + count) :
    s.accessing count t = s.raise .memory (BitVec.ofNat 16 (max s.I.toNat 4096)) := by
  simp [State.accessing, lowestOutOfRange_some hc h]

/-- A memory access has its effect, or raises with the lowest address out of range and no effect. -/
theorem accessing_cases (count : Nat) (t : State) :
    ((count = 0 ∨ s.I.toNat + count ≤ 4096) ∧ s.accessing count t = t) ∨
    (0 < count ∧ 4096 < s.I.toNat + count ∧
      s.accessing count t = s.raise .memory (BitVec.ofNat 16 (max s.I.toNat 4096))) := by
  by_cases h : count = 0 ∨ s.I.toNat + count ≤ 4096
  · exact .inl ⟨h, accessing_inside s t h⟩
  · exact .inr ⟨by omega, by omega, accessing_outside s t (by omega) (by omega)⟩

/-! ## The key number (spec/44_keys_timers.md R222) -/

theorem withKey_good {k : Byte} (effect : Bool → State) (h : k.toNat ≤ 0xF) :
    s.withKey k effect = effect (s.KEY.getLsbD k.toNat) := by
  simp [State.withKey, Nat.not_lt.2 h]

theorem withKey_bad {k : Byte} (effect : Bool → State) (h : 0xF < k.toNat) :
    s.withKey k effect = s.raise .keyIndex k.zext := by
  simp [State.withKey, h]

/-- The lowest key found is set, and no lower one is. -/
theorem lowestKey_some {v : Word} {k : Nat} (h : lowestKey v = some k) :
    k < 16 ∧ v.getLsbD k = true ∧ ∀ j, j < k → v.getLsbD j = false := by
  unfold lowestKey at h
  obtain ⟨hk, as, bs, hl, hlow⟩ := List.find?_eq_some_iff_append.1 h
  have hlen : as.length < 16 := by
    have := congrArg List.length hl
    simp at this
    omega
  have hget : ∀ i (hi : i < 16), (List.range 16)[i]'(by simpa using hi) = i := by simp
  have hka : k = as.length := by
    have := hget as.length hlen
    simp [hl] at this
    exact this
  refine ⟨by omega, hk, fun j hj => ?_⟩
  have hja : as[j]'(by omega) = j := by
    have := hget j (by omega)
    simp only [hl] at this
    rw [List.getElem_append_left (by omega)] at this
    exact this
  have := hlow (as[j]'(by omega)) (List.getElem_mem _)
  rw [hja] at this
  simpa using this

/-- No key is found exactly when none is set. -/
theorem lowestKey_none {v : Word} : lowestKey v = none ↔ ∀ k, k < 16 → v.getLsbD k = false := by
  simp [lowestKey, List.find?_eq_none]

/-! ## The timers (spec/60_exceptions.md R265) -/

theorem decayed_eq (t : Byte) (k : Nat) : decayed t k = BitVec.ofNat 8 (t.toNat - k) := by
  unfold decayed
  split
  · next h => simp [h]
  · rfl

/-- A timer after `k` windows: `max(0, t - k)`. -/
@[simp] theorem decayed_toNat (t : Byte) (k : Nat) : (decayed t k).toNat = t.toNat - k := by
  rw [decayed_eq, BitVec.toNat_ofNat]
  have := t.isLt
  omega

/-- Decaying twice is decaying by the sum. -/
theorem decayed_decayed (t : Byte) (k l : Nat) : decayed (decayed t k) l = decayed t (k + l) := by
  apply BitVec.eq_of_toNat_eq
  simp only [decayed_toNat]
  omega

end Sys2Proof.Laws
end

