-- ==== Sys2Proof/Laws/Cycle.lean ====
section
/-! SUPPORT. What one cycle and one step can do, said once (spec/30_encoding.md R70). -/

namespace Sys2Proof.Laws

open Sys2Proof.Machine

variable (s : State)

/-- Fetching does not depend on the tick. -/
@[simp] theorem fetchWord_tickBy (k : Nat) : (s.tickBy k).fetchWord = s.fetchWord := rfl

theorem cycle_halted {r : FaultRecord} (h : s.FAULT = some r) : cycle s = .fault (.halted r) := by
  simp [cycle, h]

theorem cycle_fetch_error (h : s.FAULT = none) (hp : 0xFFE < s.pc.toNat) :
    cycle s = .next ((s.tickBy s.TICKS).raise .fetch s.pc) := by
  simp [cycle, h, fetchExecute, hp]

theorem cycle_unknown (h : s.FAULT = none) (hp : s.pc.toNat ≤ 0xFFE) (hd : decode s.fetchWord = none) :
    cycle s = .next ((s.tickBy s.TICKS).fetched.raise .unknownInstruction s.fetchWord) := by
  simp [cycle, h, fetchExecute, Nat.not_lt.2 hp, decodeExecute, hd]

theorem cycle_exec {i : Instr} (h : s.FAULT = none) (hp : s.pc.toNat ≤ 0xFFE) (hd : decode s.fetchWord = some i) :
    cycle s = exec i (s.tickBy s.TICKS).fetched := by
  simp [cycle, h, fetchExecute, Nat.not_lt.2 hp, decodeExecute, hd]

/-- One cycle: halted, a fetch error, an unknown word, or the instruction. -/
theorem cycle_cases :
    (∃ r, s.FAULT = some r ∧ cycle s = .fault (.halted r)) ∨
    (s.FAULT = none ∧ 0xFFE < s.pc.toNat ∧ cycle s = .next ((s.tickBy s.TICKS).raise .fetch s.pc)) ∨
    (s.FAULT = none ∧ s.pc.toNat ≤ 0xFFE ∧ decode s.fetchWord = none ∧
      cycle s = .next ((s.tickBy s.TICKS).fetched.raise .unknownInstruction s.fetchWord)) ∨
    (∃ i, s.FAULT = none ∧ s.pc.toNat ≤ 0xFFE ∧ decode s.fetchWord = some i ∧
      cycle s = exec i (s.tickBy s.TICKS).fetched) := by
  cases h : s.FAULT with
  | some r => exact .inl ⟨r, rfl, cycle_halted s h⟩
  | none =>
    by_cases hp : s.pc.toNat ≤ 0xFFE
    · cases hd : decode s.fetchWord with
      | none => exact .inr (.inr (.inl ⟨rfl, hp, rfl, cycle_unknown s h hp hd⟩))
      | some i => exact .inr (.inr (.inr ⟨i, rfl, hp, rfl, cycle_exec s h hp hd⟩))
    · exact .inr (.inl ⟨rfl, by omega, cycle_fetch_error s h (by omega)⟩)

/-- What the host's moves leave: the state itself, or the reset one, but for the keys and the cycle's inputs. -/
theorem receive_cases :
    (s.nextInput.reset = none ∧
      s.receive = { s with
        KEY := s.nextInput.keys.getD s.KEY, TICKS := s.nextInput.ticks, RNG := s.nextInput.rng,
        inputs := s.inputs.tail, cycles := s.cycles + 1 }) ∨
    (∃ q, s.nextInput.reset = some q ∧
      s.receive = { s.hostReset q with
        KEY := s.nextInput.keys.getD 0, TICKS := s.nextInput.ticks, RNG := s.nextInput.rng,
        inputs := s.inputs.tail, cycles := s.cycles + 1 }) := by
  unfold State.receive
  cases h : s.nextInput.reset with
  | none => exact .inl ⟨rfl, rfl⟩
  | some q => exact .inr ⟨q, rfl, rfl⟩

/-- No instruction stops the machine: every meaning answers a next state. -/
theorem exec_next (i : Instr) : ∃ t, exec i s = .next t := by
  cases i <;> exact ⟨_, rfl⟩

/-- No steps. -/
theorem run_zero (M : Host.Core) (s : M.State) : M.run 0 s = .next s := rfl

/-- One step and then the others. -/
theorem run_succ (M : Host.Core) (n : Nat) (s : M.State) :
    M.run (n + 1) s =
      match M.step s with
      | .next t => M.run n t
      | .fault r => .fault r
      | .refused r => .refused r := rfl

/-- A run whose first step answers a next state goes on from there. -/
theorem run_next {s t : State} (n : Nat) (h : step s = .next t) : core.run (n + 1) s = core.run n t := by
  refine (run_succ core n s).trans ?_
  rw [show core.step s = .next t from h]

/-- A run whose first step stops has stopped. -/
theorem run_fault {s : State} {r : Fault} (n : Nat) (h : step s = .fault r) : core.run (n + 1) s = .fault r := by
  refine (run_succ core n s).trans ?_
  rw [show core.step s = .fault r from h]

end Sys2Proof.Laws
end

