-- ==== Sys2Proof/Laws/Decode.lean ====
section
/-! SUPPORT. The fields of an encoded word, and the fields of a word as numbers (spec/30_encoding.md R71, R72). -/

namespace Sys2Proof.Laws

/-! ## Fields of the formats -/

@[simp] theorem regOf_regBits (r : Reg) : regOf (regBits r) = r := rfl

section Append

variable {a b : Nat}

/-- The low bits of an append. -/
theorem extract_low (x : BitVec a) (y : BitVec b) : (x ++ y).extractLsb' 0 b = y := by
  apply BitVec.eq_of_getLsbD_eq
  intro i hi
  simp only [BitVec.getLsbD_extractLsb', BitVec.getLsbD_append]
  simp [hi]

/-- Bits above the low part of an append. -/
theorem extract_high (x : BitVec a) (y : BitVec b) (k len : Nat) :
    (x ++ y).extractLsb' (b + k) len = x.extractLsb' k len := by
  apply BitVec.eq_of_getLsbD_eq
  intro i hi
  simp only [BitVec.getLsbD_extractLsb', BitVec.getLsbD_append]
  have h1 : ¬ b + k + i < b := by omega
  have h2 : b + k + i - b = k + i := by omega
  simp [h1, h2]

/-- Bits inside the low part of an append. -/
theorem extract_inside (x : BitVec a) (y : BitVec b) (k len : Nat) (h : k + len ≤ b) :
    (x ++ y).extractLsb' k len = y.extractLsb' k len := by
  apply BitVec.eq_of_getLsbD_eq
  intro i hi
  simp only [BitVec.getLsbD_extractLsb', BitVec.getLsbD_append]
  have h1 : k + i < b := by omega
  simp [hi, h1]

/-- A whole vector extracted. -/
theorem extract_all (x : BitVec a) : x.extractLsb' 0 a = x := by
  apply BitVec.eq_of_getLsbD_eq
  intro i hi
  simp [hi]

end Append

variable (op n : BitVec 4) (x y : Reg) (kk : Byte) (nnn : Addr)

@[simp] theorem opField_fmtNNN : opField (fmtNNN op nnn) = op := (extract_high op nnn 0 4).trans (extract_all op)
@[simp] theorem nnnField_fmtNNN : nnnField (fmtNNN op nnn) = nnn := extract_low op nnn

@[simp] theorem opField_fmtXKK : opField (fmtXKK op x kk) = op :=
  (extract_high op (regBits x ++ kk) 0 4).trans (extract_all op)
@[simp] theorem kkField_fmtXKK : kkField (fmtXKK op x kk) = kk :=
  (extract_inside op (regBits x ++ kk) 0 8 (by decide)).trans (extract_low (regBits x) kk)
@[simp] theorem xField_fmtXKK : xField (fmtXKK op x kk) = regBits x :=
  (extract_inside op (regBits x ++ kk) 8 4 (by decide)).trans
    ((extract_high (regBits x) kk 0 4).trans (extract_all (regBits x)))

@[simp] theorem opField_fmtXYN : opField (fmtXYN op x y n) = op :=
  (extract_high op (regBits x ++ (regBits y ++ n)) 0 4).trans (extract_all op)
@[simp] theorem xField_fmtXYN : xField (fmtXYN op x y n) = regBits x :=
  (extract_inside op (regBits x ++ (regBits y ++ n)) 8 4 (by decide)).trans
    ((extract_high (regBits x) (regBits y ++ n) 0 4).trans (extract_all (regBits x)))
@[simp] theorem yField_fmtXYN : yField (fmtXYN op x y n) = regBits y :=
  (extract_inside op (regBits x ++ (regBits y ++ n)) 4 4 (by decide)).trans
    ((extract_inside (regBits x) (regBits y ++ n) 4 4 (by decide)).trans
      ((extract_high (regBits y) n 0 4).trans (extract_all (regBits y))))
@[simp] theorem nField_fmtXYN : nField (fmtXYN op x y n) = n :=
  (extract_inside op (regBits x ++ (regBits y ++ n)) 0 4 (by decide)).trans
    ((extract_inside (regBits x) (regBits y ++ n) 0 4 (by decide)).trans (extract_low (regBits y) n))

/-! ## A word is its fields -/

theorem word_eq_append (w : Word) (k : Nat) (hk : k ≤ 16) :
    (w.extractLsb' k (16 - k) ++ w.extractLsb' 0 k).cast (by omega) = w := by
  apply BitVec.eq_of_getLsbD_eq
  intro i hi
  simp only [BitVec.getLsbD_cast, BitVec.getLsbD_append, BitVec.getLsbD_extractLsb']
  by_cases h : i < k
  · simp [h]
  · have e : k + (i - k) = i := by omega
    have h' : i - k < 16 - k := by omega
    simp [h, e, h']

theorem fmtNNN_fields (w : Word) : fmtNNN (opField w) (nnnField w) = w := word_eq_append w 12 (by decide)

theorem regBits_regOf (f : BitVec 4) : regBits (regOf f) = f := rfl

theorem fmtXKK_fields (w : Word) : fmtXKK (opField w) (regOf (xField w)) (kkField w) = w := by
  apply BitVec.eq_of_getLsbD_eq
  intro i hi
  simp only [fmtXKK, opField, xField, kkField, regBits_regOf, BitVec.getLsbD_append, BitVec.getLsbD_extractLsb']
  by_cases h : i < 8
  · have h12 : i < 4 + 8 := by omega
    simp [h, h12]
  · by_cases h12 : i < 12
    · have e : 8 + (i - 8) = i := by omega
      have l : i - 8 < 4 := by omega
      simp [h, h12, e, l]
    · have e : 12 + (i - 12) = i := by omega
      have l : i - 12 < 4 := by omega
      simp [h12, e, l]

theorem fmtXYN_fields (w : Word) : fmtXYN (opField w) (regOf (xField w)) (regOf (yField w)) (nField w) = w := by
  apply BitVec.eq_of_getLsbD_eq
  intro i hi
  simp only [fmtXYN, opField, xField, yField, nField, regBits_regOf, BitVec.getLsbD_append, BitVec.getLsbD_extractLsb']
  by_cases h : i < 4
  · have h8 : i < 4 + 4 := by omega
    have h12 : i < 4 + (4 + 4) := by omega
    simp [h, h8, h12]
  · by_cases h8 : i < 8
    · have e : 4 + (i - 4) = i := by omega
      have l : i - 4 < 4 := by omega
      have h12 : i < 4 + (4 + 4) := by omega
      simp [h, h8, h12, e, l]
    · by_cases h12 : i < 12
      · have e : 8 + (i - 8) = i := by omega
        have l : i - 8 < 4 := by omega
        simp [h8, h12, e, l]
      · have e : 12 + (i - 12) = i := by omega
        have l : i - 12 < 4 := by omega
        simp [h12, e, l]

/-! ## The masks of the opcode table -/

/-- Masking the family keeps `op`. -/
theorem mask_family (w : Word) : w &&& 0xF000 = fmtNNN (opField w) 0 := by
  apply BitVec.eq_of_getLsbD_eq
  intro i hi
  simp only [fmtNNN, opField, BitVec.getLsbD_and, BitVec.getLsbD_append, BitVec.getLsbD_extractLsb']
  interval_cases i <;> simp

/-- Masking the family and the low byte keeps `op` and `w[7:0]`. -/
theorem mask_family_byte (w : Word) : w &&& 0xF0FF = fmtXKK (opField w) 0 (kkField w) := by
  apply BitVec.eq_of_getLsbD_eq
  intro i hi
  simp only [fmtXKK, opField, kkField, regBits, BitVec.getLsbD_and, BitVec.getLsbD_append, BitVec.getLsbD_extractLsb']
  interval_cases i <;> simp

/-- Masking the family and the low nibble keeps `op` and `w[3:0]`. -/
theorem mask_family_nibble (w : Word) : w &&& 0xF00F = fmtXYN (opField w) 0 0 (nField w) := by
  apply BitVec.eq_of_getLsbD_eq
  intro i hi
  simp only [fmtXYN, opField, nField, regBits, BitVec.getLsbD_and, BitVec.getLsbD_append, BitVec.getLsbD_extractLsb']
  interval_cases i <;> simp

end Sys2Proof.Laws
end

