-- ==== Sys2Proof/Laws/Draw.lean ====
section
/-! SUPPORT. The Draw Engine, pixel by pixel (spec/43_display.md R192 to R196): each operation toggles the pixels under its
1 bits, and records a collision when one of them was set. -/

namespace Sys2Proof.Laws

open Sys2Proof.Machine

/-- Toggling one pixel of the grid changes that pixel only. -/
theorem pixel_toggle (fb : FrameBuffer) {x y : Nat} (hx : x < 64) (hy : y < 32) (a b : Nat) :
    (FrameBuffer.toggle fb x y).pixel a b = (FrameBuffer.pixel fb a b ^^ decide (a = x ∧ b = y)) := by
  unfold FrameBuffer.toggle FrameBuffer.pixel
  rw [dif_pos hy]
  by_cases hb : b < 32
  · simp only [hb, dif_pos, Vector.getElem_set]
    by_cases hyb : y = b
    · subst hyb
      by_cases ha : a < 64
      · simp only [if_true, BitVec.getLsbD_xor, BitVec.getLsbD_shiftLeft, BitVec.getLsbD_one, ha, and_true]
        congr 1
        by_cases hax : a = x
        · simp [hax]
        · by_cases hlt : a < x
          · simp [hlt, hax]
          · have : ¬ a - x = 0 := by omega
            simp [hlt, hax, this]
      · have : ¬ a = x := by omega
        simp [this, BitVec.getLsbD_of_ge _ _ (Nat.le_of_not_lt ha)]
    · have : ¬ b = y := fun h => hyb h.symm
      simp [hyb, this]
  · have : ¬ b = y := by omega
    simp [hb, this]

/-- A clear screen has no pixel set. -/
@[simp] theorem pixel_clear (x y : Nat) : FrameBuffer.pixel (Vector.replicate 32 0#64) x y = false := by
  simp [FrameBuffer.pixel]

/-- No pixel lies outside the grid. -/
theorem pixel_outside (fb : FrameBuffer) {x y : Nat} (h : 64 ≤ x ∨ 32 ≤ y) : FrameBuffer.pixel fb x y = false := by
  unfold FrameBuffer.pixel
  split
  · next hy => exact BitVec.getLsbD_of_ge _ _ (by omega)
  · rfl

/-- The bit a sprite row drawn at column `x0` puts on column `a`. -/
def rowBit (row : Byte) (x0 a : Nat) : Bool := decide (x0 ≤ a ∧ a < x0 + 8) && row.getLsbD (7 - (a - x0))

/-- The bit that sprite rows drawn at `(x0, y)` put on `(a, b)`. -/
def rowsBit (rows : List Byte) (x0 y a b : Nat) : Bool :=
  decide (y ≤ b ∧ b < y + rows.length) && rowBit (rows.getD (b - y) 0) x0 a

/-- Plotting one bit: the pixels. -/
theorem pixel_plot (c : Canvas) {x y : Nat} (hy : y < 32) (bit : Bool) {a : Nat} (ha : a < 64) (b : Nat) :
    FrameBuffer.pixel (c.plot x y bit).fb a b = (FrameBuffer.pixel c.fb a b ^^ (bit && decide (a = x ∧ b = y))) := by
  unfold Canvas.plot
  split
  · next h =>
    simp only [Config.displayW] at h
    have : ¬ a = x := by omega
    simp [this]
  · next h =>
    simp only [Config.displayW, Nat.not_le] at h
    cases bit
    · simp
    · simp [pixel_toggle c.fb h hy]

/-- Plotting one bit: the collision. -/
theorem hit_plot (c : Canvas) (x y : Nat) (bit : Bool) :
    (c.plot x y bit).hit = (c.hit || (bit && decide (x < 64) && FrameBuffer.pixel c.fb x y)) := by
  unfold Canvas.plot
  split
  · next h =>
    have : ¬ x < 64 := Nat.not_lt.2 h
    simp [this]
  · next h => simp only [Config.displayW, Nat.not_le] at h; cases bit <;> simp [h]

/-- The first `k` bits of a row: the pixels and the collision. -/
theorem plots_spec (c : Canvas) (row : Byte) (x0 : Nat) {y : Nat} (hy : y < 32) : ∀ k, k ≤ 8 →
    let d := (List.range k).foldl (fun c j => c.plot (x0 + j) y (row.getLsbD (7 - j))) c
    (∀ a b, a < 64 → FrameBuffer.pixel d.fb a b =
      (FrameBuffer.pixel c.fb a b ^^ (decide (b = y ∧ x0 ≤ a ∧ a < x0 + k) && row.getLsbD (7 - (a - x0))))) ∧
    (d.hit = true ↔ c.hit = true ∨
      ∃ a, a < 64 ∧ x0 ≤ a ∧ a < x0 + k ∧ FrameBuffer.pixel c.fb a y = true ∧ row.getLsbD (7 - (a - x0)) = true) := by
  intro k
  induction k with
  | zero =>
    intro _
    have hz : ∀ a, ¬ (x0 ≤ a ∧ a < x0 + 0) := by omega
    simp only [List.range_zero, List.foldl_nil, hz, and_false, decide_false, Bool.false_and, Bool.xor_false, implies_true,
      true_and]
    refine ⟨.inl, ?_⟩
    rintro (h | ⟨a, _, h1, h2, _⟩)
    · exact h
    · omega
  | succ k ih =>
    intro hk
    obtain ⟨hpix, hhit⟩ := ih (by omega)
    simp only [List.range_succ, List.foldl_append, List.foldl_cons, List.foldl_nil]
    refine ⟨fun a b ha => ?_, ?_⟩
    · rw [pixel_plot _ hy _ ha, hpix a b ha, Bool.xor_assoc]
      congr 1
      by_cases hax : a = x0 + k
      · subst hax
        simp [Bool.and_comm]
      · have : (b = y ∧ x0 ≤ a ∧ a < x0 + (k + 1)) ↔ (b = y ∧ x0 ≤ a ∧ a < x0 + k) := by omega
        simp [hax, this]
    · rw [hit_plot, Bool.or_eq_true, hhit]
      constructor
      · rintro ((h | ⟨a, h1, h2, h3, h4⟩) | h)
        · exact .inl h
        · exact .inr ⟨a, h1, h2, by omega, h4⟩
        · simp only [Bool.and_eq_true, decide_eq_true_eq] at h
          obtain ⟨⟨hb, hlt⟩, hp⟩ := h
          rw [hpix _ _ hlt] at hp
          refine .inr ⟨x0 + k, hlt, by omega, by omega, ?_, by simpa using hb⟩
          simpa using hp
      · rintro (h | ⟨a, h1, h2, h3, h4, h5⟩)
        · exact .inl (.inl h)
        · by_cases hak : a < x0 + k
          · exact .inl (.inr ⟨a, h1, h2, hak, h4, h5⟩)
          · have : a = x0 + k := by omega
            subst this
            right
            simp only [Bool.and_eq_true, decide_eq_true_eq]
            refine ⟨⟨by simpa using h5, h1⟩, ?_⟩
            rw [hpix _ _ h1]
            simpa using h4

/-- One sprite row: the pixels and the collision; a row outside the grid does nothing. -/
theorem drawRow_spec (c : Canvas) (row : Byte) (x0 y : Nat) :
    (∀ a b, a < 64 → FrameBuffer.pixel (c.drawRow row x0 y).fb a b =
      (FrameBuffer.pixel c.fb a b ^^ (decide (b = y ∧ y < 32) && rowBit row x0 a))) ∧
    ((c.drawRow row x0 y).hit = true ↔ c.hit = true ∨
      ∃ a, a < 64 ∧ y < 32 ∧ FrameBuffer.pixel c.fb a y = true ∧ rowBit row x0 a = true) := by
  unfold Canvas.drawRow
  split
  · next h =>
    simp only [Config.displayH] at h
    have : ¬ y < 32 := by omega
    simp [this]
  · next h =>
    simp only [Config.displayH, Nat.not_le] at h
    obtain ⟨hpix, hhit⟩ := plots_spec c row x0 h 8 (Nat.le_refl 8)
    refine ⟨fun a b ha => ?_, ?_⟩
    · rw [hpix a b ha]
      simp [rowBit, h, Bool.and_assoc]
    · rw [hhit]
      simp [rowBit, h, and_assoc, and_left_comm]

/-- Sprite rows: the pixels and the collision. -/
theorem drawRows_spec : ∀ (rows : List Byte) (c : Canvas) (x0 y : Nat),
    (∀ a b, a < 64 → b < 32 → FrameBuffer.pixel (c.drawRows rows x0 y).fb a b =
      (FrameBuffer.pixel c.fb a b ^^ rowsBit rows x0 y a b)) ∧
    ((c.drawRows rows x0 y).hit = true ↔ c.hit = true ∨
      ∃ a b, a < 64 ∧ b < 32 ∧ FrameBuffer.pixel c.fb a b = true ∧ rowsBit rows x0 y a b = true) := by
  intro rows
  induction rows with
  | nil =>
    intro c x0 y
    have hb : ∀ a b, rowsBit [] x0 y a b = false := by
      intro a b
      have : ¬ (y ≤ b ∧ b < y + ([] : List Byte).length) := by simp
      unfold rowsBit
      rw [decide_eq_false this, Bool.false_and]
    simp [Canvas.drawRows, hb]
  | cons row rows ih =>
    intro c x0 y
    obtain ⟨hpix, hhit⟩ := ih (c.drawRow row x0 y) x0 (y + 1)
    obtain ⟨rpix, rhit⟩ := drawRow_spec c row x0 y
    have hbit : ∀ a b, b < 32 → rowsBit (row :: rows) x0 y a b =
        ((decide (b = y ∧ y < 32) && rowBit row x0 a) ^^ rowsBit rows x0 (y + 1) a b) := by
      intro a b hb
      unfold rowsBit
      by_cases hby : b = y
      · subst hby; simp [hb]
      · by_cases hlt : y + 1 ≤ b
        · obtain ⟨k, rfl⟩ : ∃ k, b = y + 1 + k := ⟨b - (y + 1), by omega⟩
          have e1 : y + 1 + k - y = k + 1 := by omega
          have e2 : y + 1 + k - (y + 1) = k := by omega
          have e3 : (y ≤ y + 1 + k ∧ y + 1 + k < y + (rows.length + 1)) ↔
              (y + 1 ≤ y + 1 + k ∧ y + 1 + k < y + 1 + rows.length) := by omega
          simp [hby, e1, e2, e3]
        · have n1 : ¬ y ≤ b := by omega
          simp [hby, n1, hlt]
    rw [Canvas.drawRows]
    refine ⟨fun a b ha hb => ?_, ?_⟩
    · rw [hpix a b ha hb, rpix a b ha, hbit a b hb, Bool.xor_assoc]
    · rw [hhit, rhit]
      constructor
      · rintro ((h | ⟨a, ha, hy, hp, hr⟩) | ⟨a, b, ha, hb, hp, hr⟩)
        · exact .inl h
        · refine .inr ⟨a, y, ha, hy, hp, ?_⟩
          rw [hbit a y hy]
          have : rowsBit rows x0 (y + 1) a y = false := by simp [rowsBit]
          simp [hr, this, hy]
        · have hne : ¬ b = y := by
            intro h
            subst h
            simp [rowsBit] at hr
          rw [rpix a b ha] at hp
          refine .inr ⟨a, b, ha, hb, by simpa [hne] using hp, ?_⟩
          rw [hbit a b hb]
          simp [hne, hr]
      · rintro (h | ⟨a, b, ha, hb, hp, hr⟩)
        · exact .inl (.inl h)
        · rw [hbit a b hb] at hr
          by_cases hby : b = y
          · subst hby
            have h0 : rowsBit rows x0 (b + 1) a b = false := by simp [rowsBit]
            exact .inl (.inr ⟨a, ha, hb, hp, by simpa [h0, hb] using hr⟩)
          · refine .inr ⟨a, b, ha, hb, ?_, by simpa [hby] using hr⟩
            rw [rpix a b ha]
            simpa [hby] using hp

end Sys2Proof.Laws
end

