-- ==== Sys2Proof/Laws/Exec.lean ====
section
/-! SUPPORT. What an instruction with more than one outcome answers in each of them, so that no later proof unfolds a
meaning with a condition. -/

namespace Sys2Proof.Laws

open Sys2Proof.Machine

variable (s : State)

/-! ## Stack (spec/40_flow.md R101, R103) -/

theorem exec_ret_some (h : 0 < s.SP.val) :
    exec .ret s = .next (({ s with SP := ⟨s.SP.val - 1, by omega⟩ } : State).jump (s.S[s.SP.val - 1]'(by omega))) :=
  congrArg Host.Outcome.next (popJump_some s h)

theorem exec_ret_empty (h : s.SP.val = 0) : exec .ret s = .next (s.raise .stackUnderflow 0) :=
  congrArg Host.Outcome.next (popJump_empty s h)

theorem exec_call_free (nnn : Addr) (h : s.SP.val < 16) :
    exec (.call nnn) s =
      .next (({ s with S := s.S.set s.SP.val (s.pc + 2) h, SP := ⟨s.SP.val + 1, by omega⟩ } : State).jump (immAddr nnn)) :=
  congrArg Host.Outcome.next (pushJump_free s _ _ _ h)

theorem exec_call_full (nnn : Addr) (h : s.SP.val = 16) :
    exec (.call nnn) s = .next (s.raise .stackOverflow (immAddr nnn)) :=
  congrArg Host.Outcome.next (pushJump_full s _ _ _ h)

/-! ## Keys (spec/44_keys_timers.md R220 to R224) -/

theorem exec_skp_key (x : Reg) (h : (s.reg x).toNat ≤ 0xF) :
    exec (.skp x) s = .next (s.skipIf (s.KEY.getLsbD (s.reg x).toNat)) :=
  congrArg Host.Outcome.next (withKey_good s _ h)

theorem exec_skp_bad (x : Reg) (h : 0xF < (s.reg x).toNat) :
    exec (.skp x) s = .next (s.raise .keyIndex (s.reg x).zext) :=
  congrArg Host.Outcome.next (withKey_bad s _ h)

theorem exec_sknp_key (x : Reg) (h : (s.reg x).toNat ≤ 0xF) :
    exec (.sknp x) s = .next (s.skipIf (!s.KEY.getLsbD (s.reg x).toNat)) :=
  congrArg Host.Outcome.next (withKey_good s _ h)

theorem exec_sknp_bad (x : Reg) (h : 0xF < (s.reg x).toNat) :
    exec (.sknp x) s = .next (s.raise .keyIndex (s.reg x).zext) :=
  congrArg Host.Outcome.next (withKey_bad s _ h)

theorem exec_ldVxK_take (x : Reg) {k : Nat} (hw : s.WAIT = true) (hk : lowestKey (newKeys s.KEY s.KSNAP) = some k) :
    exec (.ldVxK x) s = .next (s.takeKey x k) := by
  simp [exec, execLdVxK, hw, hk]

theorem exec_ldVxK_hold (x : Reg) (h : s.WAIT = true → lowestKey (newKeys s.KEY s.KSNAP) = none) :
    exec (.ldVxK x) s = .next s.holdForKey := by
  simp only [exec, execLdVxK]
  cases hw : s.WAIT with
  | false => rfl
  | true => rw [h hw]

/-! ## Memory (spec/42_index_memory.md R163 to R165, 43_display.md R193, R197) -/

/-- The next state of a draw in range. -/
theorem exec_drw_in (x y : Reg) {n : Nat} (h : n = 0 ∨ s.I.toNat + n ≤ 4096) :
    exec (.drw x y n) s =
      .next (({ s with FB := (s.drawSprite (s.reg x) (s.reg y) n).fb } : State).setFlag
        (bitFlag (s.drawSprite (s.reg x) (s.reg y) n).hit)).advance :=
  congrArg Host.Outcome.next (accessing_inside s _ h)

theorem exec_drw_out (x y : Reg) {n : Nat} (h0 : 0 < n) (h : 4096 < s.I.toNat + n) :
    exec (.drw x y n) s = .next (s.raise .memory (BitVec.ofNat 16 (max s.I.toNat 4096))) :=
  congrArg Host.Outcome.next (accessing_outside s _ h0 h)

theorem exec_ldBVx_in (x : Reg) (h : s.I.toNat + 3 ≤ 4096) :
    exec (.ldBVx x) s =
      .next ({ s with mem := s.mem.storeBytes s.I.toNat (bcdDigits (s.reg x)) } : State).advance :=
  congrArg Host.Outcome.next (accessing_inside s _ (.inr h))

theorem exec_ldBVx_out (x : Reg) (h : 4096 < s.I.toNat + 3) :
    exec (.ldBVx x) s = .next (s.raise .memory (BitVec.ofNat 16 (max s.I.toNat 4096))) :=
  congrArg Host.Outcome.next (accessing_outside s _ (by decide) h)

theorem exec_ldMiVx_in (x : Reg) (h : s.I.toNat + (x.val + 1) ≤ 4096) :
    exec (.ldMiVx x) s = .next ({ s with mem := s.mem.storeBytes s.I.toNat (s.regsUpTo x) } : State).advance :=
  congrArg Host.Outcome.next (accessing_inside s _ (.inr h))

theorem exec_ldMiVx_out (x : Reg) (h : 4096 < s.I.toNat + (x.val + 1)) :
    exec (.ldMiVx x) s = .next (s.raise .memory (BitVec.ofNat 16 (max s.I.toNat 4096))) :=
  congrArg Host.Outcome.next (accessing_outside s _ (Nat.succ_pos _) h)

theorem exec_ldVxMi_in (x : Reg) (h : s.I.toNat + (x.val + 1) ≤ 4096) :
    exec (.ldVxMi x) s = .next (s.loadRegsUpTo x).advance :=
  congrArg Host.Outcome.next (accessing_inside s _ (.inr h))

theorem exec_ldVxMi_out (x : Reg) (h : 4096 < s.I.toNat + (x.val + 1)) :
    exec (.ldVxMi x) s = .next (s.raise .memory (BitVec.ofNat 16 (max s.I.toNat 4096))) :=
  congrArg Host.Outcome.next (accessing_outside s _ (Nat.succ_pos _) h)

end Sys2Proof.Laws
end

