-- ==== Sys2Proof/Laws/PerInstr.lean ====
section
/-! SUPPORT. Facts about every instruction as syntax, one lemma per constructor. Family `TableRow`: the encoding of an
instruction lies in the row of opcode_table.json that bears its mnemonic (spec/30_encoding.md R81). -/

namespace Sys2Proof.Laws.TableRow

/-- The word of `i` lies in a row of the opcode table, and the row bears `i`'s mnemonic. -/
def Statement (i : Instr) : Prop := ∃ row ∈ opcodeTable, row.mnemonic = i.mnemonic ∧ row.holds (encode i) = true

/-- Format `F-NNN`: the row masks the family. -/
theorem ofFamily {i : Instr} {m : String} {op : BitVec 4} {nnn : Addr} (hm : i.mnemonic = m) (he : encode i = fmtNNN op nnn)
    (hr : ⟨m, 0xF000, fmtNNN op 0⟩ ∈ opcodeTable) : Statement i :=
  ⟨_, hr, hm.symm, beq_iff_eq.2 (by rw [he, mask_family]; simp)⟩

/-- Format `F-XKK`: the row masks the family. -/
theorem ofImmediate {i : Instr} {m : String} {op : BitVec 4} {x : Reg} {kk : Byte} (hm : i.mnemonic = m) (he : encode i = fmtXKK op x kk)
    (hr : ⟨m, 0xF000, fmtNNN op 0⟩ ∈ opcodeTable) : Statement i :=
  ⟨_, hr, hm.symm, beq_iff_eq.2 (by rw [he, mask_family]; simp)⟩

/-- Format `F-XSUB`: the row masks the family and the low byte. -/
theorem ofSub {i : Instr} {m : String} {op : BitVec 4} {x : Reg} {kk : Byte} (hm : i.mnemonic = m) (he : encode i = fmtXKK op x kk)
    (hr : ⟨m, 0xF0FF, fmtXKK op 0 kk⟩ ∈ opcodeTable) : Statement i :=
  ⟨_, hr, hm.symm, beq_iff_eq.2 (by rw [he, mask_family_byte]; simp)⟩

/-- Format `F-XYN` with a function selector: the row masks the family and the low nibble. -/
theorem ofSelector {i : Instr} {m : String} {op n : BitVec 4} {x y : Reg} (hm : i.mnemonic = m) (he : encode i = fmtXYN op x y n)
    (hr : ⟨m, 0xF00F, fmtXYN op 0 0 n⟩ ∈ opcodeTable) : Statement i :=
  ⟨_, hr, hm.symm, beq_iff_eq.2 (by rw [he, mask_family_nibble]; simp)⟩

theorem cls : Statement .cls := ⟨⟨"CLS", 0xF0FF, 0x00E0⟩, by decide, rfl, by decide⟩
theorem ret : Statement .ret := ⟨⟨"RET", 0xF0FF, 0x00EE⟩, by decide, rfl, by decide⟩
theorem jp (nnn : Addr) : Statement (.jp nnn) := ofFamily (op := 0x1) (m := "JP") rfl rfl (by decide)
theorem call (nnn : Addr) : Statement (.call nnn) := ofFamily (op := 0x2) (m := "CALL") rfl rfl (by decide)
theorem seImm (x : Reg) (kk : Byte) : Statement (.seImm x kk) :=
  ofImmediate (op := 0x3) (m := "SE_IMM") rfl rfl (by decide)
theorem sneImm (x : Reg) (kk : Byte) : Statement (.sneImm x kk) :=
  ofImmediate (op := 0x4) (m := "SNE_IMM") rfl rfl (by decide)
theorem seReg (x y : Reg) : Statement (.seReg x y) :=
  ofSelector (op := 0x5) (n := 0x0) (m := "SE_REG") rfl rfl (by decide)
theorem sneReg (x y : Reg) : Statement (.sneReg x y) :=
  ofSelector (op := 0x9) (n := 0x0) (m := "SNE_REG") rfl rfl (by decide)
theorem ldImm (x : Reg) (kk : Byte) : Statement (.ldImm x kk) :=
  ofImmediate (op := 0x6) (m := "LD_IMM") rfl rfl (by decide)
theorem addImm (x : Reg) (kk : Byte) : Statement (.addImm x kk) :=
  ofImmediate (op := 0x7) (m := "ADD_IMM") rfl rfl (by decide)
theorem ldReg (x y : Reg) : Statement (.ldReg x y) :=
  ofSelector (op := 0x8) (n := 0x0) (m := "LD_REG") rfl rfl (by decide)
theorem orReg (x y : Reg) : Statement (.orReg x y) :=
  ofSelector (op := 0x8) (n := 0x1) (m := "OR") rfl rfl (by decide)
theorem andReg (x y : Reg) : Statement (.andReg x y) :=
  ofSelector (op := 0x8) (n := 0x2) (m := "AND") rfl rfl (by decide)
theorem xorReg (x y : Reg) : Statement (.xorReg x y) :=
  ofSelector (op := 0x8) (n := 0x3) (m := "XOR") rfl rfl (by decide)
theorem addReg (x y : Reg) : Statement (.addReg x y) :=
  ofSelector (op := 0x8) (n := 0x4) (m := "ADD_REG") rfl rfl (by decide)
theorem sub (x y : Reg) : Statement (.sub x y) := ofSelector (op := 0x8) (n := 0x5) (m := "SUB") rfl rfl (by decide)
theorem shr (x y : Reg) : Statement (.shr x y) := ofSelector (op := 0x8) (n := 0x6) (m := "SHR") rfl rfl (by decide)
theorem subn (x y : Reg) : Statement (.subn x y) :=
  ofSelector (op := 0x8) (n := 0x7) (m := "SUBN") rfl rfl (by decide)
theorem shl (x y : Reg) : Statement (.shl x y) := ofSelector (op := 0x8) (n := 0xE) (m := "SHL") rfl rfl (by decide)
theorem ldI (nnn : Addr) : Statement (.ldI nnn) := ofFamily (op := 0xA) (m := "LD_I") rfl rfl (by decide)
theorem jpV0 (nnn : Addr) : Statement (.jpV0 nnn) := ofFamily (op := 0xB) (m := "JP_V0") rfl rfl (by decide)
theorem rnd (x : Reg) (kk : Byte) : Statement (.rnd x kk) := ofImmediate (op := 0xC) (m := "RND") rfl rfl (by decide)
theorem drw (x y : Reg) (n : Nat) : Statement (.drw x y n) :=
  ⟨⟨"DRW", 0xF000, fmtNNN 0xD 0⟩, by decide, rfl, beq_iff_eq.2 (by rw [mask_family, encode, opField_fmtXYN])⟩
theorem skp (x : Reg) : Statement (.skp x) := ofSub (op := 0xE) (kk := 0x9E) (m := "SKP") rfl rfl (by decide)
theorem sknp (x : Reg) : Statement (.sknp x) := ofSub (op := 0xE) (kk := 0xA1) (m := "SKNP") rfl rfl (by decide)
theorem ldVxDt (x : Reg) : Statement (.ldVxDt x) :=
  ofSub (op := 0xF) (kk := 0x07) (m := "LD_VX_DT") rfl rfl (by decide)
theorem ldVxK (x : Reg) : Statement (.ldVxK x) := ofSub (op := 0xF) (kk := 0x0A) (m := "LD_VX_K") rfl rfl (by decide)
theorem ldDtVx (x : Reg) : Statement (.ldDtVx x) :=
  ofSub (op := 0xF) (kk := 0x15) (m := "LD_DT_VX") rfl rfl (by decide)
theorem ldStVx (x : Reg) : Statement (.ldStVx x) :=
  ofSub (op := 0xF) (kk := 0x18) (m := "LD_ST_VX") rfl rfl (by decide)
theorem addIVx (x : Reg) : Statement (.addIVx x) :=
  ofSub (op := 0xF) (kk := 0x1E) (m := "ADD_I_VX") rfl rfl (by decide)
theorem ldFVx (x : Reg) : Statement (.ldFVx x) := ofSub (op := 0xF) (kk := 0x29) (m := "LD_F_VX") rfl rfl (by decide)
theorem ldBVx (x : Reg) : Statement (.ldBVx x) := ofSub (op := 0xF) (kk := 0x33) (m := "LD_B_VX") rfl rfl (by decide)
theorem ldMiVx (x : Reg) : Statement (.ldMiVx x) :=
  ofSub (op := 0xF) (kk := 0x55) (m := "LD_MI_VX") rfl rfl (by decide)
theorem ldVxMi (x : Reg) : Statement (.ldVxMi x) :=
  ofSub (op := 0xF) (kk := 0x65) (m := "LD_VX_MI") rfl rfl (by decide)

end Sys2Proof.Laws.TableRow
end

