-- ==== Sys2Proof/Tests/Slice0.lean ====
section
/-! SUPPORT. Tests: expected words from the patterns of 30_encoding.md R90, expected results from 95_test_vectors.md (the
vector is named); then, for every statement with hypotheses, states and operands that meet them, at the edges of their ranges. -/

namespace Sys2Proof.Tests

open Sys2Proof.Machine Sys2Proof.Safety

/-! ## WellFormed: the one check, a sprite height of more than 4 bits -/

theorem test_wf_refuses_tall_sprite : (Instr.drw 0 0 16).wf = false := by decide
theorem test_wf_admits_height_15 : (Instr.drw 15 15 15).wf = true := by decide

/-! ## Decoding, one word of every row -/

theorem test_decode_family_0 :
    decode 0x00E0 = some .cls ∧ decode 0x05E0 = some .cls ∧ decode 0x00EE = some .ret ∧ decode 0x0FEE = some .ret := by decide
theorem test_decode_jumps :
    decode 0x1203 = some (.jp 0x203) ∧ decode 0x2FFF = some (.call 0xFFF) ∧ decode 0xB801 = some (.jpV0 0x801) := by decide
theorem test_decode_skips :
    decode 0x3A42 = some (.seImm 10 0x42) ∧ decode 0x4A43 = some (.sneImm 10 0x43) ∧
    decode 0x51F0 = some (.seReg 1 15) ∧ decode 0x9F10 = some (.sneReg 15 1) := by decide
theorem test_decode_immediates :
    decode 0x6A42 = some (.ldImm 10 0x42) ∧ decode 0x7F01 = some (.addImm 15 1) ∧
    decode 0xC3F0 = some (.rnd 3 0xF0) ∧ decode 0xAFFF = some (.ldI 0xFFF) := by decide
theorem test_decode_family_8 :
    decode 0x8130 = some (.ldReg 1 3) ∧ decode 0x8121 = some (.orReg 1 2) ∧ decode 0x8122 = some (.andReg 1 2) ∧
    decode 0x8123 = some (.xorReg 1 2) ∧ decode 0x8F14 = some (.addReg 15 1) ∧ decode 0x8F15 = some (.sub 15 1) ∧
    decode 0x8F16 = some (.shr 15 1) ∧ decode 0x8F17 = some (.subn 15 1) ∧ decode 0x8F1E = some (.shl 15 1) := by decide
theorem test_decode_draw : decode 0xD12F = some (.drw 1 2 15) ∧ decode 0xDFF0 = some (.drw 15 15 0) := by decide
theorem test_decode_keys : decode 0xE29E = some (.skp 2) ∧ decode 0xE2A1 = some (.sknp 2) := by decide
theorem test_decode_family_F :
    decode 0xF507 = some (.ldVxDt 5) ∧ decode 0xF30A = some (.ldVxK 3) ∧ decode 0xF115 = some (.ldDtVx 1) ∧
    decode 0xF118 = some (.ldStVx 1) ∧ decode 0xFF1E = some (.addIVx 15) ∧ decode 0xF129 = some (.ldFVx 1) ∧
    decode 0xF133 = some (.ldBVx 1) ∧ decode 0xF255 = some (.ldMiVx 2) ∧ decode 0xF265 = some (.ldVxMi 2) := by decide
theorem test_decode_refuses :
    decode 0x0000 = none ∧ decode 0x0123 = none ∧ decode 0x512F = none ∧ decode 0x9121 = none ∧ decode 0x8128 = none ∧
    decode 0xE2A2 = none ∧ decode 0xFFFF = none ∧ decode 0xF10B = none := by decide
theorem test_decode_bytes :
    decodeBytes [0x6A, 0x42, 0x99] = .ok (.ldImm 10 0x42, [0x99]) ∧ decodeBytes [0x6A] = .error .truncated ∧
    decodeBytes [0x81, 0x28] = .error (.unknownInstruction 0x8128) ∧ decodeBytes [] = .error .truncated := by
  refine ⟨rfl, rfl, rfl, rfl⟩
theorem test_decode_table_word : decodeTableWord 16 0x2ABC = some (.call 0xABC) ∧ decodeTableWord 16 0x0123 = none := by decide
theorem test_encode :
    encode (.sub 1 2) = 0x8125 ∧ encode (.jp 0x234) = 0x1234 ∧ encode (.drw 1 2 15) = 0xD12F ∧
    encode (.ldMiVx 15) = 0xFF55 ∧ encode .ret = 0x00EE ∧ encodeBytes (.ldI 0x2F0) = [0xA2, 0xF0] := by decide

/-! ## One cycle from a small state -/

/-- The inputs of a cycle in which the host moves nothing: no window, random byte 0. -/
def quiet : HostInput := { reset := none, keys := none, ticks := 0, rng := 0 }

/-- The reset state with the inputs of one cycle. -/
def begin (inp : HostInput := quiet) : State := { State.reset with inputs := [inp] }

/-- Registers set. -/
def regs (l : List (Reg × Byte)) (s : State) : State := l.foldl (fun s r => s.setReg r.1 r.2) s

/-- Bytes stored. -/
def bytes (a : Nat) (l : List Byte) (s : State) : State := { s with mem := s.mem.storeBytes a l }

/-- A pixel toggled. -/
def lit (x y : Nat) (s : State) : State := { s with FB := FrameBuffer.toggle s.FB x y }

/-- The next step after placing the word `w` answers a next state that passes the check. -/
def after (w : Nat) (s : State) (check : State → Bool) : Bool :=
  match step (s.withFetchWord 16 w) with
  | .next t => check t
  | .fault _ => false
  | .refused _ => false

/-- The record of an error. -/
def errorIs (t : State) (error : ErrorKind) (info pc opc : Word) : Bool :=
  t.FAULT == some { error := error, info := info, pc := pc, opc := opc }

/-- VD12. -/
theorem test_cls : after 0x00E0 (lit 1 1 (lit 63 31 begin)) (fun t =>
    !t.pixel 1 1 && !t.pixel 63 31 && t.pc == 0x202 && t.OPC == 0x00E0) = true := by decide
/-- VB8. -/
theorem test_ret : after 0x00EE { begin with SP := 2, S := (begin.S.set 0 0x206).set 1 0x30A } (fun t =>
    t.SP == 1 && t.pc == 0x30A && t.S[0] == 0x206) = true := by decide
/-- VB9. -/
theorem test_ret_underflow : after 0x00EE begin (fun t => errorIs t .stackUnderflow 0 0x200 0x00EE) = true := by decide
/-- VB2. -/
theorem test_jp_odd : after 0x1203 begin (fun t => t.pc == 0x203) = true := by decide
/-- VB5. -/
theorem test_call_last_entry : after 0x2400 { begin with SP := 15 } (fun t =>
    t.S[15] == 0x202 && t.SP == 16 && t.pc == 0x400) = true := by decide
/-- VB6. -/
theorem test_call_overflow : after 0x2400 { begin with SP := 16 } (fun t =>
    errorIs t .stackOverflow 0x400 0x200 0x2400 && t.SP == 16 && t.pc == 0x200) = true := by decide
/-- VB11, VB12. -/
theorem test_seImm : after 0x3A42 (regs [(10, 0x42)] begin) (fun t => t.pc == 0x204) = true ∧
    after 0x3A42 (regs [(10, 0x43)] begin) (fun t => t.pc == 0x202) = true := by decide
/-- VB13, VB14. -/
theorem test_sneImm : after 0x4A42 (regs [(10, 0x43)] begin) (fun t => t.pc == 0x204) = true ∧
    after 0x4A42 (regs [(10, 0x42)] begin) (fun t => t.pc == 0x202) = true := by decide
/-- VB15. -/
theorem test_seReg_same : after 0x5550 begin (fun t => t.pc == 0x204) = true := by decide
/-- VB17. -/
theorem test_sneReg : after 0x9120 (regs [(1, 1), (2, 2)] begin) (fun t => t.pc == 0x204) = true := by decide
/-- VA1. -/
theorem test_ldImm : after 0x6A42 begin (fun t => t.reg 10 == 0x42 && t.pc == 0x202) = true := by decide
/-- VA4 with a flag kept. -/
theorem test_addImm : after 0x7020 (regs [(0, 0xF0), (15, 7)] begin) (fun t =>
    t.reg 0 == 0x10 && t.reg 15 == 7) = true := by decide
/-- VA23. -/
theorem test_ldReg : after 0x8130 (regs [(3, 0x99)] begin) (fun t => t.reg 1 == 0x99 && t.reg 3 == 0x99) = true := by decide
/-- VA20. -/
theorem test_or : after 0x8121 (regs [(1, 0x0F), (2, 0xF0), (15, 0x55)] begin) (fun t =>
    t.reg 1 == 0xFF && t.reg 15 == 0x55) = true := by decide
/-- VA21. -/
theorem test_and : after 0x8122 (regs [(1, 0x3C), (2, 0x0F)] begin) (fun t => t.reg 1 == 0x0C) = true := by decide
/-- VA22. -/
theorem test_xor : after 0x8113 (regs [(1, 0xAB), (15, 1)] begin) (fun t => t.reg 1 == 0 && t.reg 15 == 1) = true := by decide
/-- VA7. -/
theorem test_addReg_flag_operand : after 0x81F4 (regs [(1, 0x10), (15, 1)] begin) (fun t =>
    t.reg 1 == 0x11 && t.reg 15 == 0) = true := by decide
/-- VA8. -/
theorem test_addReg_carry : after 0x8114 (regs [(1, 0x80)] begin) (fun t => t.reg 1 == 0 && t.reg 15 == 1) = true := by decide
/-- VA11. -/
theorem test_sub_borrow : after 0x8125 (regs [(1, 0), (2, 0xFF)] begin) (fun t =>
    t.reg 1 == 0xFF && t.reg 15 == 0) = true := by decide
/-- VA12. -/
theorem test_sub_into_flag : after 0x8F15 (regs [(15, 0x10), (1, 0x30)] begin) (fun t => t.reg 15 == 0x20) = true := by decide
/-- L1-2; `V[y]` is not shifted. -/
theorem test_shr : after 0x8126 (regs [(1, 0x85), (2, 0xF0)] begin) (fun t =>
    t.reg 1 == 0x42 && t.reg 15 == 1 && t.reg 2 == 0xF0) = true := by decide
/-- VA13. -/
theorem test_subn : after 0x8127 (regs [(1, 3), (2, 5)] begin) (fun t => t.reg 1 == 2 && t.reg 15 == 1) = true := by decide
/-- VA18. -/
theorem test_shl : after 0x810E (regs [(1, 0xFF)] begin) (fun t => t.reg 1 == 0xFE && t.reg 15 == 0x80) = true := by decide
/-- VA19. -/
theorem test_shl_into_flag : after 0x8F0E (regs [(15, 0x81)] begin) (fun t => t.reg 15 == 2) = true := by decide
/-- VC1. -/
theorem test_ldI : after 0xAFFF begin (fun t => t.I == 0xFFF && t.pc == 0x202) = true := by decide
/-- VB20. -/
theorem test_jpV0_wraps : after 0xBFFF (regs [(0, 0xFF)] begin) (fun t => t.pc == 0x0FE) = true := by decide
/-- VA24. -/
theorem test_rnd : after 0xC3F0 (begin { quiet with rng := 0xAB }) (fun t => t.reg 3 == 0xA0) = true := by decide
/-- VD2: clipped at the right edge. -/
theorem test_drw_clips : after 0xD011 (bytes 0x300 [0xFF] (regs [(0, 0x3C)] { begin with I := 0x300 })) (fun t =>
    t.pixel 60 0 && t.pixel 63 0 && !t.pixel 59 0 && !t.pixel 0 0 && !t.pixel 0 1 && t.reg 15 == 0) = true := by decide
/-- VD6: a collision. -/
theorem test_drw_collides : after 0xD011 (bytes 0x300 [0xC0] (lit 0 0 { begin with I := 0x300 })) (fun t =>
    !t.pixel 0 0 && t.pixel 1 0 && t.reg 15 == 1) = true := by decide
/-- VE1, VE2. -/
theorem test_skp : after 0xE29E (regs [(2, 5)] { begin with KEY := 0x20 }) (fun t => t.pc == 0x204) = true ∧
    after 0xE29E (regs [(2, 5)] begin) (fun t => t.pc == 0x202) = true := by decide
/-- VE5. -/
theorem test_skp_key_index : after 0xE29E (regs [(2, 0x10)] begin) (fun t =>
    errorIs t .keyIndex 0x10 0x200 0xE29E) = true := by decide
/-- VE3, VE4. -/
theorem test_sknp : after 0xE2A1 (regs [(2, 5)] begin) (fun t => t.pc == 0x204) = true ∧
    after 0xE2A1 (regs [(2, 5)] { begin with KEY := 0x20 }) (fun t => t.pc == 0x202) = true := by decide
/-- VE8: the tick comes before the instruction. -/
theorem test_ldVxDt_after_tick : after 0xF507 { begin { quiet with ticks := 3 } with DT := 0x3C } (fun t =>
    t.DT == 0x39 && t.reg 5 == 0x39) = true := by decide
/-- VE13, cycle 1. -/
theorem test_ldVxK_holds : after 0xF30A begin (fun t => t.WAIT && t.KSNAP == 0 && t.pc == 0x200) = true := by decide
/-- VE13, cycle 2: the lower of keys 2 and 7. -/
theorem test_ldVxK_takes : after 0xF30A { begin { quiet with keys := some 0x0084 } with WAIT := true } (fun t =>
    !t.WAIT && t.reg 3 == 2 && t.KSNAP == 0 && t.pc == 0x202) = true := by decide
/-- VE10. -/
theorem test_ldDtVx : after 0xF115 (regs [(1, 0x3C)] begin) (fun t => t.DT == 0x3C && t.ST == 0) = true := by decide
/-- VE11. -/
theorem test_ldStVx : after 0xF118 (regs [(1, 5)] begin) (fun t => t.ST == 5 && t.DT == 0) = true := by decide
/-- VC4. -/
theorem test_addIVx_wraps : after 0xF11E (regs [(1, 0xFF)] { begin with I := 0xFFF }) (fun t =>
    t.I == 0x0FE && t.reg 15 == 1) = true := by decide
/-- VC6. -/
theorem test_addIVx_flag_operand : after 0xFF1E (regs [(15, 5)] { begin with I := 0x100 }) (fun t =>
    t.I == 0x105 && t.reg 15 == 0) = true := by decide
/-- VC7. -/
theorem test_ldFVx : after 0xF129 (regs [(1, 0xFF)] begin) (fun t => t.I == 0x4FB) = true := by decide
/-- VC12: the last legal `I`. -/
theorem test_ldBVx : after 0xF133 (regs [(1, 0xFF)] { begin with I := 0xFFD }) (fun t =>
    t.mem.read 0xFFD == 2 && t.mem.read 0xFFE == 5 && t.mem.read 0xFFF == 5 && t.I == 0xFFD) = true := by decide
/-- VC13. -/
theorem test_ldBVx_out_of_range : after 0xF133 (regs [(1, 0xFF)] { begin with I := 0xFFE }) (fun t =>
    errorIs t .memory 0x1000 0x200 0xF133 && t.mem.read 0xFFE == 0) = true := by decide
/-- VC16. -/
theorem test_ldMiVx : after 0xF055 (regs [(0, 0xAA), (1, 0xBB)] { begin with I := 0x400 }) (fun t =>
    t.mem.read 0x400 == 0xAA && t.mem.read 0x401 == 0 && t.I == 0x400) = true := by decide
/-- VC17. -/
theorem test_ldVxMi : after 0xF265 (bytes 0x400 [1, 2, 3, 4] (regs [(3, 0x99)] { begin with I := 0x400 })) (fun t =>
    t.reg 0 == 1 && t.reg 1 == 2 && t.reg 2 == 3 && t.reg 3 == 0x99 && t.I == 0x400) = true := by decide
/-- VE12: an unknown word; the tick stands. -/
theorem test_unknown_word : after 0xFFFF { begin { quiet with ticks := 2 } with DT := 10, ST := 3 } (fun t =>
    t.DT == 8 && t.ST == 1 && errorIs t .unknownInstruction 0xFFFF 0x200 0xFFFF) = true := by decide
/-- VB26: a fetch past the end keeps `OPC`. -/
theorem test_fetch_error : step { begin with pc := 0xFFF } =
    .next { State.reset with
      pc := 0xFFF, cycles := 1
      FAULT := some { error := .fetch, info := 0xFFF, pc := 0xFFF, opc := 0 } } := rfl
/-- L1-9 and the default table of 10_state.md R33: the last glyph. -/
theorem test_font : (State.reset.mem.readBytes 0x4B 5) = [0xF0, 0x80, 0xF0, 0x80, 0x80] := by decide

/-- L1-8: the host clock is `1/30` s after the last window boundary, and `DT = 10`. -/
theorem test_clock_two_windows : ({ begin with DT := 10 } : State).windowsElapsed (1 / 30) = 2 ∧
    (({ begin with DT := 10 } : State).tickBy 2).DT = 8 := by
  constructor
  · decide +kernel
  · decide

/-- L1-8: half a window later no window has elapsed, a whole window later one has. -/
theorem test_clock_keeps_fraction : ({ begin with TREF := 2 } : State).windowsElapsed (1 / 30 + 1 / 120) = 0 ∧
    ({ begin with TREF := 2 } : State).windowsElapsed (1 / 30 + 1 / 60) = 1 := by
  constructor <;> decide +kernel

/-- R254, R276: a halted core goes on only with a reset, and the image is then in memory. -/
theorem test_host_reset :
    (match step { State.reset with
        FAULT := some { error := .fetch, info := 0xFFF, pc := 0xFFF, opc := 0 }, I := 0x123
        inputs := [{ quiet with reset := some { font := defaultFont, fill := [(0x600, 7)], image := [0x6A, 0x42] } }] } with
      | .next t => t.reg 10 == 0x42 && t.I == 0 && t.pc == 0x202 && t.mem.read 0x600 == 7 && t.FAULT.isNone
      | .fault _ => false
      | .refused _ => false) = true := by decide

/-- 10_state.md R33, 70_reset_and_hazards.md R290: with another `FONT` memory holds it, over the fill, and nothing else. -/
theorem test_reset_with_another_font :
    let m := (State.resetWith { font := Vector.replicate 80 0x11, fill := [(0x4F, 7), (0x50, 7)], image := [] }).mem
    m.read 0 = 0x11 ∧ m.read 0x4F = 0x11 ∧ m.read 0x50 = 7 ∧ m.read 0x51 = 0 := by decide

/-- `State.reset` is the reset with the default `FONT`, no fill named and the empty image. -/
theorem test_reset_is_default : State.resetWith { font := defaultFont, fill := [], image := [] } = State.reset := by decide

/-! ## Witnesses: for each statement with hypotheses, what meets them -/

/-- A word stored at the last address an instruction can be fetched from. -/
def lastWord (hi lo : Byte) : State := bytes 0xFFE [hi, lo] { begin with pc := 0xFFE }

/-- A record of some error. -/
def someRecord : FaultRecord := { error := .fetch, info := 0xFFF, pc := 0xFFF, opc := 0 }

theorem witness_DecodeOfEncodeIsIdentity : (Instr.drw 15 15 15).wf = true := by decide

theorem witness_EncodeOfDecodeIsTheWord :
    decode 0x0FEE = some .ret ∧ (0x0FEE : Word).toNat < 0x1000 ∧
    decode 0x1000 = some (.jp 0) ∧ ¬ (0x1000 : Word).toNat < 0x1000 := by decide

theorem witness_StepRunsDecodedInstruction :
    let r := (lastWord 0x00 0xE0).receive
    r.FAULT = none ∧ r.pc.toNat ≤ 0xFFE ∧
    decode (wordOfBytes (r.mem.read r.pc.toNat) (r.mem.read (r.pc.toNat + 1))) = some .cls := by decide

theorem witness_HostInputsReachTheCycle :
    begin.inputs = quiet :: [] ∧ quiet.reset = none ∧
    (begin { quiet with reset := some ⟨defaultFont, [], [0x6A]⟩ }).inputs = { quiet with reset := some ⟨defaultFont, [], [0x6A]⟩ } :: [] := by decide

theorem witness_UnknownWordRaises :
    let r := (lastWord 0xFF 0xFF).receive
    r.FAULT = none ∧ r.pc.toNat ≤ 0xFFE ∧
    ∀ row ∈ opcodeTable, row.holds (wordOfBytes (r.mem.read r.pc.toNat) (r.mem.read (r.pc.toNat + 1))) = false := by decide

theorem witness_FetchPastTheEndRaises :
    let r := ({ begin with pc := 0xFFF } : State).receive
    r.FAULT = none ∧ 0xFFE < r.pc.toNat := by decide

theorem witness_HaltedCoreStaysHalted :
    let s := { State.reset with FAULT := some someRecord }
    s.FAULT = some someRecord ∧ s.nextInput.reset = none := ⟨rfl, rfl⟩

theorem witness_ErrorsArePrecise :
    (∃ t f, step { begin with pc := 0xFFF } = .next t ∧ t.FAULT = some f ∧ f.error = .fetch) ∧
    (∃ t f, step begin = .next t ∧ t.FAULT = some f ∧ f.error ≠ .fetch) :=
  ⟨⟨_, _, rfl, rfl, rfl⟩, ⟨_, _, rfl, rfl, by decide⟩⟩

theorem witness_ErrorCausesAreTheSixListed :
    (∃ t f, step (lastWord 0xFF 0xFF) = .next t ∧ t.FAULT = some f ∧ f.error = .unknownInstruction) ∧
    (∃ t f, step { begin with pc := 0xFFF } = .next t ∧ t.FAULT = some f ∧ f.error = .fetch) ∧
    (∃ t f, step { lastWord 0x24 0x00 with SP := 16 } = .next t ∧ t.FAULT = some f ∧ f.error = .stackOverflow) ∧
    (∃ t f, step (lastWord 0x00 0xEE) = .next t ∧ t.FAULT = some f ∧ f.error = .stackUnderflow) ∧
    (∃ t f, step { lastWord 0xF1 0x33 with I := 0xFFE } = .next t ∧ t.FAULT = some f ∧ f.error = .memory) ∧
    (∃ t f, step (regs [(2, 0x10)] (lastWord 0xE2 0x9E)) = .next t ∧ t.FAULT = some f ∧ f.error = .keyIndex) :=
  ⟨⟨_, _, rfl, rfl, rfl⟩, ⟨_, _, rfl, rfl, rfl⟩, ⟨_, _, rfl, rfl, rfl⟩, ⟨_, _, rfl, rfl, rfl⟩, ⟨_, _, rfl, rfl, rfl⟩,
    ⟨_, _, rfl, rfl, rfl⟩⟩

/-- The last byte of the longest image, the first and last byte outside the font and a short image. -/
theorem witness_HostResetSetsEveryPiece :
    (3583 < (List.replicate 3584 (0xAA : Byte)).length ∧ 3583 < 3584) ∧
    (80 ≤ 80 ∧ 80 ≤ 0xFFF ∧ 80 < 0x200) ∧ (80 ≤ 0xFFF ∧ 0x200 + ([0x6A] : List Byte).length ≤ 0xFFF) := by
  rw [List.length_replicate]
  decide

theorem witness_ClockTickKeepsTheFraction : ((State.reset.TREF : Nat) : Rat) ≤ (0 : Rat) * 60 := by
  simp [State.reset]

/-- A core that holds at an `Fx0A` in the last word of memory, with a full stack. -/
def holding : State :=
  { lastWord 0xF3 0x0A with WAIT := true, KSNAP := 4, KEY := 4, I := 0xFFF, SP := 16, S := Vector.replicate 16 0x1000 }

theorem witness_StepKeepsInvariant : Inv holding ∧ ∃ t, step holding = .next t := by
  refine ⟨⟨by decide, by decide, by decide, by decide, by decide, fun _ => ⟨rfl, by decide, 3, by decide⟩, ?_⟩, _, rfl⟩
  intro r h
  cases h

theorem witness_OnlyListedInstructionsWriteEachPart :
    (∃ t, exec .cls begin = .next t) ∧ mayWrite .cls .memory = false := ⟨⟨_, rfl⟩, rfl⟩

theorem witness_RegistersChangeOnlyAsNamed :
    (∃ t, exec (.addReg 1 2) begin = .next t) ∧ isDestination (.addReg 1 2) 14 = false ∧
    (writesFlag (.addReg 1 2) = true → (14 : Reg) ≠ 15) := ⟨⟨_, rfl⟩, by decide, by decide⟩

theorem witness_ProgramCounterMovesAsListed :
    begin.FAULT = none ∧ (∃ t, exec .ret begin = .next t ∧ t.FAULT ≠ none) ∧
    (∃ t, exec .cls begin = .next t ∧ t.FAULT = none) := ⟨rfl, ⟨_, rfl, by decide⟩, ⟨_, rfl, by decide⟩⟩

/-- Two stacks that agree below `SP = 1` and differ above. -/
theorem witness_FreeStackEntriesAreUnobservable :
    let s : State := { begin with SP := 1 }
    (∀ j : Fin 16, j.val < s.SP.val → (s.S.set 1 0x777)[j] = s.S[j]) ∧ s.S.set 1 0x777 ≠ s.S := by decide

theorem witness_SkippedWordIsNotRead : isSkip (.skp 0) = true ∧ isSkip (.sneReg 1 2) = true := by decide

/-- `F155` just below the last word of memory, which it stores. -/
theorem witness_StoredWordIsFetchedNext :
    let s : State := regs [(0, 0x12), (1, 0x08)] { begin with I := 0xFFE, pc := 0xFFC }
    s.mem.wf = true ∧ s.FAULT = none ∧ s.I.toNat + (1 : Reg).val ≤ 0xFFF ∧
    (∃ t, exec (.ldMiVx 1) s = .next t ∧ t.pc.toNat = s.I.toNat + (0 : Reg).val ∧ t.nextInput.reset = none) ∧
    (1 : Reg).val = (0 : Reg).val + 1 ∧ (1 : Reg) ≤ 1 ∧
    decode (wordOfBytes (s.reg 0) (s.reg 1)) = some (.jp 0x208) :=
  ⟨by decide, rfl, by decide, ⟨_, rfl, by decide, rfl⟩, rfl, by decide, by decide⟩

theorem witness_JumpToItselfRepeats :
    let s := lastWord 0x1F 0xFE
    s.FAULT = none ∧ s.pc.toNat ≤ 0xFFE ∧ decode s.fetchWord = some (.jp 0xFFE) ∧ (0xFFE : Addr).toNat = s.pc.toNat ∧
    NoReset s := by
  refine ⟨rfl, by decide, by decide, by decide, ?_⟩
  simp [NoReset, lastWord, bytes, begin, quiet]

theorem witness_PlacedInstructionRuns : State.reset.mem.wf = true ∧ (Instr.drw 15 15 15).wf = true := by decide

theorem witness_ReturnPopsOrUnderflows :
    begin.SP.val = 0 ∧ ({ begin with SP := 16 } : State).SP.val = (15 : Fin 16).val + 1 := by decide

theorem witness_CallPushesOrOverflows :
    ({ begin with SP := 16 } : State).SP.val = 16 ∧ ({ begin with SP := 15 } : State).SP.val = (15 : Fin 16).val := by decide

theorem witness_RegisterSkips :
    (0x5001 : Word) &&& 0xF000 = 0x5000 ∧ (0x5001 : Word) &&& 0x000F ≠ 0 ∧
    (0x9FFF : Word) &&& 0xF000 = 0x9000 ∧ (0x9FFF : Word) &&& 0x000F ≠ 0 := by decide

theorem witness_CallThenReturnComesBack : ({ begin with SP := 15 } : State).SP.val < 16 := by decide

/-- `AddSetsCarry`, `SubtractsAreAbsoluteDifferences`, `ShiftsMoveOneBit`: a destination that is not the flag. -/
theorem witness_destination_is_not_flag : (14 : Reg) ≠ 15 := by decide

theorem witness_DecimalDigitsAreStored :
    ((0xFFE : Word).toNat ≤ 0xFFF ∧ 0xFFF < (0xFFE : Word).toNat + 2) ∧
    begin.mem.wf = true ∧ (0xFFD : Word).toNat + 2 ≤ 0xFFF := by decide

/-- Also `RegistersAreLoaded`: sixteen registers, one byte too high and just fitting. -/
theorem witness_RegistersAreStored :
    ((0xFF1 : Word).toNat ≤ 0xFFF ∧ 0xFFF < (0xFF1 : Word).toNat + (15 : Reg).val) ∧
    begin.mem.wf = true ∧ (0xFF0 : Word).toNat + (15 : Reg).val ≤ 0xFFF := by decide

theorem witness_StoreThenLoadRestoresRegisters :
    let s : State := { begin with I := 0xFF0 }
    s.mem.wf = true ∧ s.I.toNat + (15 : Reg).val ≤ 0xFFF ∧ ∃ t, exec (.ldMiVx 15) s = .next t :=
  ⟨by decide, by decide, _, rfl⟩

theorem witness_LowestBadAddressIsRecorded :
    0xFFF < (0xFFE : Word).toNat + 2 ∧ 0xFFF < (0xFFF : Word).toNat + (1 : Reg).val ∧
    (0 < 2 ∧ 0xFFF < (0xFFF : Word).toNat + (2 - 1)) ∧ 0xFFF < (0xFFFF : Word).toNat + (0 : Reg).val := by decide

/-- Height 0 and the last byte of memory are in range; a lit pixel collides and a clear screen does not. -/
theorem witness_DrawTogglesSpritePixels :
    ((0 : Nat) = 0 ∨ (0xFFF : Word).toNat + (0 - 1) ≤ 0xFFF) ∧ (0xFFF : Word).toNat + (1 - 1) ≤ 0xFFF ∧
    Collides (bytes 0x300 [0xC0] (lit 0 0 { begin with I := 0x300 })) 0 0 1 ∧
    ¬ Collides begin 0 0 1 := by
  refine ⟨.inl rfl, by decide, ⟨0, 0, by decide, by decide⟩, ?_⟩
  rintro ⟨cx, cy, h, -⟩
  rw [show begin.pixel cx cy = false from Laws.pixel_clear cx cy] at h
  cases h

theorem witness_DrawRangeAndHeightZero :
    (0xFFF : Word).toNat ≤ 0xFFF ∧ 0 < 2 ∧ 0xFFF < (0xFFF : Word).toNat + (2 - 1) := by decide

/-- One row drawn on a clear screen turns pixel `(0, 0)` on; nothing drawn turns nothing on. -/
theorem witness_DrawingTwiceRestoresTheScreen :
    (let s : State := bytes 0x300 [0x80] { begin with I := 0x300 }
     s.I.toNat + (1 - 1) ≤ 0xFFF ∧ ∃ t, exec (.drw 0 1 1) s = .next t ∧ t.reg 0 = s.reg 0 ∧ t.reg 1 = s.reg 1 ∧
       s.pixel 0 0 = false ∧ t.pixel 0 0 = true) ∧
    (∃ t, exec (.drw 0 1 0) begin = .next t ∧ t.reg 0 = begin.reg 0 ∧ t.reg 1 = begin.reg 1 ∧
       ¬ ∃ (cx : Fin 64) (cy : Fin 32), begin.pixel cx cy = false ∧ t.pixel cx cy = true) := by
  refine ⟨⟨by decide, _, rfl, by decide, by decide, by decide, by decide⟩, _, rfl, by decide, by decide, ?_⟩
  rintro ⟨cx, cy, -, h⟩
  exact Bool.noConfusion (h.symm.trans (Laws.pixel_clear cx cy))

theorem witness_KeySkipsTestTheKey :
    0xF < ((regs [(2, 0x10)] begin).reg 2).toNat ∧ ((regs [(2, 0xF)] begin).reg 2).toNat ≤ 0xF := by decide

/-- Key 15 newly down beside a held key 2; a held key alone; and no wait yet. -/
theorem witness_WaitForKeyTakesTheLowestPress :
    (let s : State := { begin with WAIT := true, KEY := 0x8004, KSNAP := 4 }
     s.WAIT = true ∧ s.KEY.getLsbD (15 : Fin 16) = true ∧ s.KSNAP.getLsbD (15 : Fin 16) = false ∧
       ∀ j : Fin 16, j < 15 → s.KEY.getLsbD j = true → s.KSNAP.getLsbD j = true) ∧
    (holding.WAIT = true → ∀ k : Fin 16, holding.KEY.getLsbD k = true → holding.KSNAP.getLsbD k = true) ∧
    (begin.WAIT = true → ∀ k : Fin 16, begin.KEY.getLsbD k = true → begin.KSNAP.getLsbD k = true) := by decide

theorem witness_WaitLastsUntilAPress :
    holding.FAULT = none ∧ holding.pc.toNat ≤ 0xFFE ∧ decode holding.fetchWord = some (.ldVxK 3) ∧
    NoReset holding ∧ NoKeyWrite holding ∧
    (holding.WAIT = true → ∀ k : Fin 16, holding.KEY.getLsbD k = true → holding.KSNAP.getLsbD k = true) := by
  refine ⟨rfl, by decide, by decide, ?_, ?_, by decide⟩ <;>
    simp [NoReset, NoKeyWrite, holding, lastWord, bytes, begin, quiet]

end Sys2Proof.Tests
end

section
/-! The family of 20_memory.md: a range that runs past the end of memory is an error with no effect (R55). -/

namespace Sys2Proof.Proofs.Memory

open Sys2Proof.Machine Sys2Proof.Safety Sys2Proof.Laws

/-- `State.raise` is the state change that `Raises` writes out (60_exceptions.md R253). -/
theorem raises_iff_exec_eq_raise {i : Instr} {s : State} {error : ErrorKind} {info : Word} :
    Raises i s error info ↔ exec i s = .next (s.raise error info) := Iff.rfl

/-- Settles O49: an instruction whose last byte lies past `0xFFF` touches more bytes than memory holds from `I`, so its
range check answers instead of its effect. -/
theorem lowestBadAddressIsRecorded : Obligations.LowestBadAddressIsRecorded := by
  intro x y n s
  refine ⟨fun hbcd => ?_, fun hregs => ⟨?_, ?_⟩, fun hpos hsprite => ?_⟩ <;> rw [raises_iff_exec_eq_raise]
  · exact exec_ldBVx_out s x (by omega)
  · exact exec_ldMiVx_out s x (by omega)
  · exact exec_ldVxMi_out s x (by omega)
  · exact exec_drw_out s x y hpos (by omega)

end Sys2Proof.Proofs.Memory
end

section
/-! The family of 30_encoding.md: a word in no row of the opcode table decodes to nothing, so its cycle raises
`UnknownInstruction` (R80, R81). -/

namespace Sys2Proof.Proofs.Encoding

open Sys2Proof.Machine Sys2Proof.Safety Sys2Proof.Laws

/-- The opcode table has a row with this mask and pattern. -/
abbrev HasRow (mask pattern : Word) : Prop := ∃ row ∈ opcodeTable, row.mask = mask ∧ row.pattern = pattern

/-- A family no row holds whole is one of the six with a secondary key (R75 to R79). -/
theorem hasRow_family_or_keyed :
    ∀ op : BitVec 4, HasRow 0xF000 (fmtNNN op 0) ∨
      op = 0x0 ∨ op = 0x5 ∨ op = 0x8 ∨ op = 0x9 ∨ op = 0xE ∨ op = 0xF := by decide

section UnknownWord

variable {w : Word} {op n : BitVec 4} {kk : Byte} (hw : ∀ row ∈ opcodeTable, row.holds w = false)

include hw

theorem masked_ne {mask pattern : Word} (hr : HasRow mask pattern) : w &&& mask ≠ pattern := by
  obtain ⟨row, hmem, rfl, rfl⟩ := hr
  exact beq_eq_false_iff_ne.1 (hw row hmem)

theorem not_hasRow_family : ¬ HasRow 0xF000 (fmtNNN (opField w) 0) := fun hr => masked_ne hw hr (mask_family w)

theorem kkField_ne (hop : opField w = op) (hr : HasRow 0xF0FF (fmtXKK op 0 kk)) : kkField w ≠ kk := by
  rintro rfl
  exact masked_ne hw hr (hop ▸ mask_family_byte w)

theorem nField_ne (hop : opField w = op) (hr : HasRow 0xF00F (fmtXYN op 0 0 n)) : nField w ≠ n := by
  rintro rfl
  exact masked_ne hw hr (hop ▸ mask_family_nibble w)

theorem decode0_eq_none (hop : opField w = 0x0) : decode0 w = none := by
  simp (disch := decide) [decode0, kkField_ne hw hop]

theorem decode8_eq_none (hop : opField w = 0x8) : decode8 w = none := by
  simp (disch := decide) [decode8, nField_ne hw hop]

theorem decodeE_eq_none (hop : opField w = 0xE) : decodeE w = none := by
  simp (disch := decide) [decodeE, kkField_ne hw hop]

theorem decodeF_eq_none (hop : opField w = 0xF) : decodeF w = none := by
  simp (disch := decide) [decodeF, kkField_ne hw hop]

/-- In each family with a secondary key, the key is one the family's decoder does not know. -/
theorem decode_eq_none : decode w = none := by
  obtain hr | h0 | h5 | h8 | h9 | hE | hF := hasRow_family_or_keyed (opField w)
  · exact absurd hr (not_hasRow_family hw)
  · simp [decode, h0, decode0_eq_none hw h0]
  · simp (disch := decide) [decode, h5, nField_ne hw h5]
  · simp [decode, h8, decode8_eq_none hw h8]
  · simp (disch := decide) [decode, h9, nField_ne hw h9]
  · simp [decode, hE, decodeE_eq_none hw hE]
  · simp [decode, hF, decodeF_eq_none hw hF]

end UnknownWord

/-- Tick and fetch leave the state in which a cycle executes the fetched word (R70). -/
theorem fetched_tickBy (r : State) : (r.tickBy r.TICKS).fetched = executing r r.fetchWord := by
  rw [State.fetched, fetchWord_tickBy]
  simp only [State.tickBy, decayed_eq, executing]

/-- Settles O8: a word in no row decodes to nothing, and the cycle of such a word raises in the state it would have
executed in. -/
theorem unknownWordRaises : Obligations.UnknownWordRaises := by
  intro s r w hrun hpc hw
  have hcycle : step s = .next ((r.tickBy r.TICKS).fetched.raise .unknownInstruction w) :=
    cycle_unknown r hrun hpc (decode_eq_none hw)
  rw [hcycle, fetched_tickBy]
  rfl

end Sys2Proof.Proofs.Encoding
end

section
/-! The family of 40_flow.md: the return, the jumps, the call and the register skips write `pc` and, for the call and the
return, the stack; nothing else (R100 to R108). -/

namespace Sys2Proof.Proofs.Flow

open Sys2Proof.Machine Sys2Proof.Safety Sys2Proof.Laws
open Sys2Proof.Proofs.Memory (raises_iff_exec_eq_raise)

/-! ## Rows of the opcode table, read from the fields of a word -/

theorem opField_of_family {w : Word} {op : BitVec 4} (hw : w &&& 0xF000 = fmtNNN op 0) : opField w = op := by
  rw [mask_family] at hw
  simpa using congrArg opField hw

/-- A row that masks the family. -/
theorem decodesRow_family (op : BitVec 4) {f : Word → Instr} (hf : ∀ w, opField w = op → decode w = some (f w)) :
    DecodesRow 0xF000 (fmtNNN op 0) f :=
  fun w hw => hf w (opField_of_family hw)

/-- A row that masks the family and the low byte. -/
theorem decodesRow_family_byte (op : BitVec 4) (kk : Byte) {f : Word → Instr}
    (hf : ∀ w, opField w = op → kkField w = kk → decode w = some (f w)) : DecodesRow 0xF0FF (fmtXKK op 0 kk) f := by
  intro w hw
  rw [mask_family_byte] at hw
  exact hf w (by simpa using congrArg opField hw) (by simpa using congrArg kkField hw)

/-- A row that masks the family and the low nibble. -/
theorem decodesRow_family_nibble (op n : BitVec 4) {f : Word → Instr}
    (hf : ∀ w, opField w = op → nField w = n → decode w = some (f w)) : DecodesRow 0xF00F (fmtXYN op 0 0 n) f := by
  intro w hw
  rw [mask_family_nibble] at hw
  exact hf w (by simpa using congrArg opField hw) (by simpa using congrArg nField hw)

/-- Masking the low nibble keeps `w[3:0]`. -/
theorem mask_nibble (w : Word) : w &&& 0x000F = fmtXYN 0 0 0 (nField w) := by
  apply BitVec.eq_of_getLsbD_eq
  intro i hi
  simp only [fmtXYN, nField, regBits, BitVec.getLsbD_and, BitVec.getLsbD_append, BitVec.getLsbD_extractLsb']
  interval_cases i <;> simp

theorem nField_ne_zero {w : Word} (hw : w &&& 0x000F ≠ 0) : nField w ≠ 0#4 := by
  intro hn
  rw [mask_nibble, hn] at hw
  exact hw rfl

/-! ## Frames: `pc` is no part of the state that a frame speaks of -/

theorem frameExcept_withPc {written : Reg → Prop} {parts : List Part} {s t : State} (a : Word) :
    FrameExcept written parts s { t with pc := a } ↔ FrameExcept written parts s t := by
  have hpart : ∀ p, Unchanged p s { t with pc := a } ↔ Unchanged p s t := fun p => by cases p <;> rfl
  exact and_congr Iff.rfl (forall₂_congr fun p _ => hpart p)

@[simp] theorem frameExcept_jump {written : Reg → Prop} {parts : List Part} {s t : State} (a : Word) :
    FrameExcept written parts s (t.jump a) ↔ FrameExcept written parts s t :=
  frameExcept_withPc a

@[simp] theorem frameExcept_skipIf {written : Reg → Prop} {parts : List Part} {s t : State} (taken : Bool) :
    FrameExcept written parts s (t.skipIf taken) ↔ FrameExcept written parts s t :=
  frameExcept_withPc _

theorem unchanged_refl (p : Part) (s : State) : Unchanged p s s := by
  cases p <;> simp [Unchanged]

@[simp] theorem frameExcept_refl (written : Reg → Prop) (parts : List Part) (s : State) :
    FrameExcept written parts s s :=
  ⟨fun _ _ => rfl, fun p _ => unchanged_refl p s⟩

@[simp] theorem frameExcept_withStack (written : Reg → Prop) (s : State) (entries : Vector Word 16) (depth : Fin 17) :
    FrameExcept written [.stack] s { s with S := entries, SP := depth } := by
  refine ⟨fun _ _ => rfl, fun p hp => ?_⟩
  have hsame : Unchanged p s s := unchanged_refl p s
  cases p
  case stack => exact absurd (List.mem_singleton_self _) hp
  all_goals exact hsame

/-! ## The stack instructions, with the entry named by its number -/

/-- A return from `k + 1` occupied entries pops entry `k`. -/
theorem exec_ret_pops {s : State} {k : Fin 16} (hk : s.SP.val = k.val + 1) :
    exec .ret s = .next (({ s with SP := k.castSucc } : State).jump s.S[k]) := by
  have hlt : s.SP.val - 1 < 16 := by omega
  obtain rfl : k = ⟨s.SP.val - 1, hlt⟩ := Fin.ext (Nat.eq_sub_of_add_eq hk.symm)
  exact exec_ret_some s (by omega)

/-- A call over `k` occupied entries fills entry `k`. -/
theorem exec_call_pushes (nnn : Addr) {s : State} {k : Fin 16} (hk : s.SP.val = k.val) :
    exec (.call nnn) s =
      .next (({ s with S := s.S.set k (s.pc + 2), SP := k.succ } : State).jump (immAddr nnn)) := by
  have hlt : s.SP.val < 16 := by omega
  obtain rfl : k = ⟨s.SP.val, hlt⟩ := Fin.ext hk.symm
  exact exec_call_free s nnn hlt

/-- Settles O28: the empty stack raises, and a stack of `k + 1` entries pops entry `k`. -/
theorem returnPopsOrUnderflows : Obligations.ReturnPopsOrUnderflows := by
  refine ⟨decodesRow_family_byte 0x0 0xEE fun w hop hkk => ?_, fun s hempty => ?_, fun s k hk => ?_⟩
  · simp [decode, decode0, hop, hkk]
  · exact raises_iff_exec_eq_raise.2 (exec_ret_empty s hempty)
  · exact ⟨_, exec_ret_pops hk, by simp, by simp, by simp, by simp⟩

/-- Settles O29: a jump writes `pc` only, which no frame speaks of. -/
theorem jumpWritesTarget : Obligations.JumpWritesTarget := by
  refine ⟨decodesRow_family 0x1 fun w hop => ?_, fun nnn s => ?_⟩
  · simp [decode, hop]
  · exact ⟨s.jump (immAddr nnn), rfl, by simp, by simp⟩

/-- Settles O30: the full stack raises, and a stack of `k` entries gets entry `k`. -/
theorem callPushesOrOverflows : Obligations.CallPushesOrOverflows := by
  refine ⟨decodesRow_family 0x2 fun w hop => ?_, fun nnn s hfull => ?_, fun nnn s k hk => ?_⟩
  · simp [decode, hop]
  · have hinfo : BitVec.ofNat 16 nnn.toNat = immAddr nnn := by simp [immAddr, Addr.zext]
    rw [raises_iff_exec_eq_raise, hinfo]
    exact exec_call_full s nnn hfull
  · have hother : ∀ j : Fin 16, j ≠ k → (s.S.set k (s.pc + 2))[j] = s.S[j] := by
      intro j hj
      exact Vector.getElem_set_ne _ _ (Fin.val_ne_of_ne hj.symm)
    exact ⟨_, exec_call_pushes nnn hk, by simp, by simp, hother, by simp, by simp⟩

/-! ## The skips that compare two bytes -/

/-- A skip on equal bytes goes over the next word exactly when their values are equal. -/
theorem completes_skipIf_beq {i : Instr} {s : State} {a b : Byte} (hexec : exec i s = .next (s.skipIf (a == b))) :
    Completes i s fun t =>
      t.pc = (if a.toNat = b.toNat then s.pc + 4 else s.pc + 2) ∧ FrameExcept noReg [] s t := by
  refine ⟨_, hexec, ?_, by simp⟩
  by_cases hab : a = b <;> simp [hab, BitVec.toNat_inj]

/-- A skip on different bytes goes over the next word exactly when their values differ. -/
theorem completes_skipIf_bne {i : Instr} {s : State} {a b : Byte} (hexec : exec i s = .next (s.skipIf (a != b))) :
    Completes i s fun t =>
      t.pc = (if a.toNat = b.toNat then s.pc + 2 else s.pc + 4) ∧ FrameExcept noReg [] s t := by
  refine ⟨_, hexec, ?_, by simp⟩
  by_cases hab : a = b <;> simp [hab, BitVec.toNat_inj]

/-- Settles O31: both are skips on a comparison of `V[x]` with `kk`. -/
theorem immediateSkips : Obligations.ImmediateSkips := by
  refine ⟨decodesRow_family 0x3 fun w hop => ?_, decodesRow_family 0x4 fun w hop => ?_, fun x kk s => ?_⟩
  · simp [decode, hop]
  · simp [decode, hop]
  · exact ⟨completes_skipIf_beq rfl, completes_skipIf_bne rfl⟩

/-- Settles O32: both are skips on a comparison of `V[x]` with `V[y]`, and families `5` and `9` have no function selector
but 0. -/
theorem registerSkips : Obligations.RegisterSkips := by
  refine ⟨decodesRow_family_nibble 0x5 0 fun w hop hn => ?_, decodesRow_family_nibble 0x9 0 fun w hop hn => ?_,
    fun w hfamily hlow => ?_, fun x y s => ?_⟩
  · simp [decode, hop, hn]
  · simp [decode, hop, hn]
  · have hop : opField w = 0x5 ∨ opField w = 0x9 := hfamily.imp opField_of_family opField_of_family
    obtain h5 | h9 := hop
    · simp [decode, h5, nField_ne_zero hlow]
    · simp [decode, h9, nField_ne_zero hlow]
  · exact ⟨completes_skipIf_beq rfl, completes_skipIf_bne rfl⟩

/-- Settles O33: a jump to the offset target, whatever `V[0]` holds. -/
theorem offsetJumpAddsV0 : Obligations.OffsetJumpAddsV0 := by
  refine ⟨decodesRow_family 0xB fun w hop => ?_, fun nnn s => ?_⟩
  · simp [decode, hop]
  · exact ⟨s.jump (offsetTarget (s.reg 0) nnn), rfl, by simp, by simp⟩

end Sys2Proof.Proofs.Flow
end

section
/-! The family of 41_alu.md: every ALU instruction writes `V[x]`, the flagged ones write `VF` before it, and nothing else
but `pc` changes (R130 to R144). -/

namespace Sys2Proof.Proofs.Alu

open Sys2Proof.Machine Sys2Proof.Safety Sys2Proof.Laws
open Sys2Proof.Proofs.Flow (decodesRow_family decodesRow_family_nibble frameExcept_withPc frameExcept_refl)

/-! ## Family `8` is selected by its low nibble (30_encoding.md R77) -/

theorem decodesRow_family8 (n : BitVec 4) {f : Word → Instr} (hf : ∀ w, nField w = n → decode8 w = some (f w)) :
    DecodesRow 0xF00F (fmtXYN 0x8 0 0 n) f :=
  decodesRow_family_nibble 0x8 n fun w hop hn => by
    rw [← hf w hn]
    simp [decode, hop]

/-! ## Frames: a register write stays in every frame that lists the register -/

theorem frameExcept_advance {written : Reg → Prop} {parts : List Part} {s t : State} :
    FrameExcept written parts s t.advance ↔ FrameExcept written parts s t :=
  frameExcept_withPc _

theorem unchanged_setReg {p : Part} {s t : State} (x : Reg) (v : Byte) :
    Unchanged p s (t.setReg x v) ↔ Unchanged p s t := by
  cases p <;> rfl

theorem frameExcept_setReg {written : Reg → Prop} {parts : List Part} {s t : State} {x : Reg}
    (hframe : FrameExcept written parts s t) (hx : written x) (v : Byte) :
    FrameExcept written parts s (t.setReg x v) := by
  obtain ⟨hregs, hparts⟩ := hframe
  refine ⟨fun r hr => ?_, fun p hp => (unchanged_setReg x v).2 (hparts p hp)⟩
  have hrx : r ≠ x := fun h => hr (h ▸ hx)
  simpa [hrx] using hregs r hr

theorem frameExcept_writeResult (s : State) (x : Reg) (v : Byte) :
    FrameExcept (· = x) [] s (s.writeResult x v) :=
  frameExcept_advance.2 (frameExcept_setReg (frameExcept_refl (· = x) [] s) rfl v)

theorem frameExcept_writeFlagged (s : State) (x : Reg) (flag v : Byte) :
    FrameExcept (fun r => r = x ∨ r = 15) [] s (s.writeFlagged x flag v) :=
  have hflag : FrameExcept (fun r => r = x ∨ r = 15) [] s (s.setReg 15 flag) :=
    frameExcept_setReg (frameExcept_refl _ _ s) (.inr rfl) flag
  frameExcept_advance.2 (frameExcept_setReg hflag (.inl rfl) v)

/-! ## The two shapes of an ALU instruction (R130) -/

section Shapes

variable {i : Instr} {s : State} {x : Reg} {v flag : Byte} {Q R : State → Prop}

/-- An instruction without a flag: what it says of `V[x]` is a fact about its result. -/
theorem completes_writeResult (hexec : exec i s = .next (s.writeResult x v)) (hQ : ∀ t : State, t.reg x = v → Q t) :
    Completes i s fun t => Q t ∧ t.pc = s.pc + 2 ∧ FrameExcept (· = x) [] s t :=
  ⟨_, hexec, hQ _ (by simp), rfl, frameExcept_writeResult s x v⟩

/-- An instruction with a flag: the result is written last, so that `VF` holds the flag only when `x` is another
register. -/
theorem completes_writeFlagged (hexec : exec i s = .next (s.writeFlagged x flag v))
    (hQ : ∀ t : State, t.reg x = v → Q t) (hR : ∀ t : State, t.reg 15 = flag → R t) :
    Completes i s fun t =>
      Q t ∧ (x ≠ 15 → R t) ∧ t.pc = s.pc + 2 ∧ FrameExcept (fun r => r = x ∨ r = 15) [] s t := by
  refine ⟨_, hexec, hQ _ (by simp), fun hx => hR _ ?_, rfl, frameExcept_writeFlagged s x flag v⟩
  simp [Ne.symm hx]

end Shapes

/-! ## The flags as numbers -/

theorem carryFlag_toNat (a b : Byte) : (carryFlag a b).toNat = if 255 < a.toNat + b.toNat then 1 else 0 := by
  simp [carryFlag]

theorem noBorrowFlag_toNat (a b : Byte) : (noBorrowFlag a b).toNat = if b.toNat ≤ a.toNat then 1 else 0 := by
  simp [noBorrowFlag]

/-- `SUB_MODE` is `abs` (R131). -/
theorem subResult_subMode_toNat (a b : Byte) :
    (subResult subMode a b).toNat = max a.toNat b.toNat - min a.toNat b.toNat :=
  subResult_abs_toNat a b

/-! ## The instructions that write no flag -/

/-- Settles O35: both loads write their operand as the result. -/
theorem loadsWriteTheRegister : Obligations.LoadsWriteTheRegister := by
  refine ⟨decodesRow_family 0x6 fun w hop => ?_, decodesRow_family8 0x0 fun w hn => ?_, fun x kk s => ?_, fun x y s => ?_⟩
  · simp [decode, hop]
  · simp [decode8, hn]
  · exact completes_writeResult rfl fun t ht => ht
  · exact completes_writeResult rfl fun t ht => ht

/-- Settles O36: the result is the sum `mod 256`. -/
theorem addImmediateWraps : Obligations.AddImmediateWraps := by
  refine ⟨decodesRow_family 0x7 fun w hop => ?_, fun x kk s => completes_writeResult rfl fun t ht => ?_⟩
  · simp [decode, hop]
  · rw [ht, addResult_toNat]

/-- Settles O37: the three results are taken bit by bit. -/
theorem logicIsBitwiseWithoutFlag : Obligations.LogicIsBitwiseWithoutFlag := by
  refine ⟨decodesRow_family8 0x1 fun w hn => ?_, decodesRow_family8 0x2 fun w hn => ?_,
    decodesRow_family8 0x3 fun w hn => ?_, fun x y s => ⟨?_, ?_, ?_⟩⟩
  · simp [decode8, hn]
  · simp [decode8, hn]
  · simp [decode8, hn]
  · exact completes_writeResult rfl fun t ht b => by rw [ht, BitVec.getLsbD_or]
  · exact completes_writeResult rfl fun t ht b => by rw [ht, BitVec.getLsbD_and]
  · exact completes_writeResult rfl fun t ht b => by rw [ht, BitVec.getLsbD_xor]

/-- Settles O41: the result is the draw that the cycle holds in `RNG`, masked bit by bit. -/
theorem randomByteIsMasked : Obligations.RandomByteIsMasked := by
  refine ⟨decodesRow_family 0xC fun w hop => ?_, fun x kk s => completes_writeResult rfl fun t ht b => ?_⟩
  · simp [decode, hop]
  · rw [ht, BitVec.getLsbD_and]

/-! ## The instructions that write a flag -/

/-- Settles O38: the result is the sum `mod 256` and the flag its carry. -/
theorem addSetsCarry : Obligations.AddSetsCarry := by
  refine ⟨decodesRow_family8 0x4 fun w hn => ?_,
    fun x y s => completes_writeFlagged rfl (fun t ht => ?_) fun t ht => ?_⟩
  · simp [decode8, hn]
  · rw [ht, addResult_toNat]
  · rw [ht, carryFlag_toNat]

/-- Settles O39: both results are `subResult subMode`, and `8xy7` takes `V[y]` for the minuend. -/
theorem subtractsAreAbsoluteDifferences : Obligations.SubtractsAreAbsoluteDifferences := by
  refine ⟨decodesRow_family8 0x5 fun w hn => ?_, decodesRow_family8 0x7 fun w hn => ?_, rfl, subResult_wrap_toNat,
    fun x y s => ⟨completes_writeFlagged rfl (fun t ht => ?_) fun t ht => ?_,
      completes_writeFlagged rfl (fun t ht => ?_) fun t ht => ?_⟩⟩
  · simp [decode8, hn]
  · simp [decode8, hn]
  · rw [ht, subResult_subMode_toNat]
  · rw [ht, noBorrowFlag_toNat]
  · rw [ht, subResult_subMode_toNat, max_comm, min_comm]
  · rw [ht, noBorrowFlag_toNat]

/-- Settles O40: result and flag are read from `V[x]` alone. -/
theorem shiftsMoveOneBit : Obligations.ShiftsMoveOneBit := by
  refine ⟨decodesRow_family8 0x6 fun w hn => ?_, decodesRow_family8 0xE fun w hn => ?_,
    fun x y s => ⟨completes_writeFlagged rfl (fun t ht => ?_) fun t ht => ?_,
      completes_writeFlagged rfl (fun t ht => ?_) fun t ht => ?_⟩⟩
  · simp [decode8, hn]
  · simp [decode8, hn]
  · rw [ht, shrResult_toNat]
  · rw [ht, shrFlag_toNat]
  · rw [ht, shlResult_toNat]
  · rw [ht, shlFlag_toNat]

end Sys2Proof.Proofs.Alu
end

section
/-! The family of 42_index_memory.md: three instructions write `I`, and three move bytes between the registers and memory at
`I`, or raise when the last address is past `0xFFF` (R160 to R166). -/

namespace Sys2Proof.Proofs.IndexMemory

open Sys2Proof.Machine Sys2Proof.Safety Sys2Proof.Laws
open Sys2Proof.Proofs.Memory (raises_iff_exec_eq_raise)
open Sys2Proof.Proofs.Flow (decodesRow_family decodesRow_family_byte unchanged_refl)
open Sys2Proof.Proofs.Alu (frameExcept_advance frameExcept_setReg)

/-! ## Family `F` is selected by its low byte (30_encoding.md R79) -/

theorem decodesRow_familyF (kk : Byte) {f : Word → Instr} (hf : ∀ w, kkField w = kk → decodeF w = some (f w)) :
    DecodesRow 0xF0FF (fmtXKK 0xF 0 kk) f :=
  decodesRow_family_byte 0xF kk fun w hop hkk => by
    rw [← hf w hkk]
    simp [decode, hop]

/-! ## Writing the index register -/

/-- A frame that lists one part `q`: every other part is as it was. -/
theorem frameExcept_part {written : Reg → Prop} {q : Part} {s t : State} (hV : t.V = s.V)
    (hparts : ∀ p, p ≠ q → Unchanged p s s → Unchanged p s t) : FrameExcept written [q] s t :=
  ⟨fun r _ => by rw [reg_eq, reg_eq, hV], fun p hp => hparts p (List.ne_of_not_mem_cons hp) (unchanged_refl p s)⟩

theorem frameExcept_setIndex (written : Reg → Prop) (s : State) (v : Word) :
    FrameExcept written [.index] s (s.setIndex v) :=
  frameExcept_part rfl fun p hp hsame => by
    cases p with
    | index => exact absurd rfl hp
    | _ => exact hsame

/-- An instruction that writes `I` and advances. -/
theorem completes_setIndex {i : Instr} {s : State} {v : Word} {n : Nat} (hexec : exec i s = .next (s.setIndex v).advance)
    (hv : v.toNat = n) :
    Completes i s fun t => t.I.toNat = n ∧ t.pc = s.pc + 2 ∧ FrameExcept noReg [.index] s t :=
  ⟨_, hexec, hv, rfl, frameExcept_advance.2 (frameExcept_setIndex noReg s v)⟩

theorem indexFlag_toNat (i : Word) (v : Byte) :
    (indexFlag i v).toNat = if 0xFFF < i.toNat + v.toNat then 1 else 0 := by
  rw [indexFlag, bitFlag_toNat]
  exact if_congr decide_eq_true_iff rfl rfl

/-- Settles O42: the immediate address is written to `I`. -/
theorem loadIndexWritesAddress : Obligations.LoadIndexWritesAddress := by
  refine ⟨decodesRow_family 0xA fun w hop => ?_, fun nnn s => completes_setIndex rfl (immAddr_toNat nnn)⟩
  simp [decode, hop]

/-- Settles O43: `VF` is written after `I`, and both are computed from the old `I` and `V[x]`, so `x = 15` is no special
case. -/
theorem addIndexMasksAndFlags : Obligations.AddIndexMasksAndFlags := by
  refine ⟨decodesRow_familyF 0x1E fun w hkk => ?_, fun x s => ⟨_, rfl, ?_, ?_, rfl, ?_⟩⟩
  · simp [decodeF, hkk]
  · exact indexSumMasked_toNat s.I (s.reg x)
  · simp [indexFlag_toNat]
  · have hindex := frameExcept_setIndex (· = 15) s (indexSumMasked s.I (s.reg x))
    exact frameExcept_advance.2 (frameExcept_setReg hindex rfl _)

/-- Settles O44: the glyph address is written to `I`. -/
theorem glyphAddressIsFiveTimes : Obligations.GlyphAddressIsFiveTimes := by
  refine ⟨decodesRow_familyF 0x29 fun w hkk => ?_, fun x s => completes_setIndex rfl (glyphAddr_toNat (s.reg x))⟩
  simp [decodeF, hkk]

/-! ## The range check with a 12-bit `I` -/

/-- From a 12-bit `I` the lowest address out of range is `0x1000`. -/
theorem raises_memory_0x1000 {i : Instr} {s : State} (hI : s.I.toNat ≤ 0xFFF)
    (hexec : exec i s = .next (s.raise .memory (BitVec.ofNat 16 (max s.I.toNat 4096)))) :
    Raises i s .memory 0x1000 := by
  rw [Nat.max_eq_right (by omega)] at hexec
  exact raises_iff_exec_eq_raise.2 hexec

/-! ## Storing bytes at `I` -/

/-- Byte `k` of the stored bytes lies at the `k`th address. -/
theorem read_storeBytes_inside {m : Memory} {a k : Nat} {vs : List Byte} (hm : m.wf = true)
    (hfit : a + vs.length ≤ Config.memSize) (hk : k < vs.length) : (m.storeBytes a vs).read (a + k) = vs[k] := by
  have hin : a ≤ a + k ∧ a + k < a + vs.length := by omega
  rw [read_storeBytes hm hfit, dif_pos hin]
  simp

theorem read_storeBytes_outside {m : Memory} {a b : Nat} {vs : List Byte} (hm : m.wf = true)
    (hfit : a + vs.length ≤ Config.memSize) (hb : b < a ∨ a + vs.length ≤ b) :
    (m.storeBytes a vs).read b = m.read b := by
  rw [read_storeBytes hm hfit, dif_neg (by omega)]

theorem frameExcept_withMem (s : State) (m : Memory) : FrameExcept noReg [.memory] s { s with mem := m } :=
  frameExcept_part rfl fun p hp hsame => by
    cases p with
    | memory => exact absurd rfl hp
    | _ => exact hsame

/-- An instruction that stores the bytes `vs` at `I` and advances. -/
theorem completes_storeBytes {i : Instr} {s : State} {vs : List Byte}
    (hexec : exec i s = .next ({ s with mem := s.mem.storeBytes s.I.toNat vs } : State).advance)
    (hwf : s.mem.wf = true) (hfit : s.I.toNat + vs.length ≤ Config.memSize) :
    Completes i s fun t =>
      (∀ k (hk : k < vs.length), t.mem.read (s.I.toNat + k) = vs[k]) ∧
      SameOutside s.I.toNat vs.length s t ∧ t.pc = s.pc + 2 ∧ FrameExcept noReg [.memory] s t :=
  ⟨_, hexec, fun _ hk => read_storeBytes_inside hwf hfit hk, fun _ hb => read_storeBytes_outside hwf hfit hb, rfl,
    frameExcept_advance.2 (frameExcept_withMem s _)⟩

/-! ## The bytes that are stored -/

@[simp] theorem bcdDigits_length (v : Byte) : (bcdDigits v).length = 3 := rfl

/-- Each digit of a byte fits a byte. -/
theorem bcdDigits_toNat (v : Byte) :
    (bcdDigits v)[0].toNat = v.toNat / 100 ∧ (bcdDigits v)[1].toNat = v.toNat / 10 % 10 ∧
      (bcdDigits v)[2].toNat = v.toNat % 10 := by
  have hv : v.toNat < 256 := v.isLt
  simp only [bcdDigits, List.getElem_cons_zero, List.getElem_cons_succ, BitVec.toNat_ofNat]
  omega

@[simp] theorem regsUpTo_length (s : State) (x : Reg) : (s.regsUpTo x).length = x.val + 1 := by
  simp [State.regsUpTo]

/-- Byte `j` of the stored block is `V[j]`. -/
theorem regsUpTo_getElem (s : State) {x j : Reg} (hj : j.val < (s.regsUpTo x).length) :
    (s.regsUpTo x)[j.val] = s.reg j := by
  simp [State.regsUpTo, State.reg]

/-- Settles O45: the three bytes stored at `I` are the decimal digits of `V[x]`. -/
theorem decimalDigitsAreStored : Obligations.DecimalDigitsAreStored := by
  refine ⟨decodesRow_familyF 0x33 fun w hkk => ?_, fun x s hI hout => ?_, fun x s hwf hin => ?_⟩
  · simp [decodeF, hkk]
  · exact raises_memory_0x1000 hI (exec_ldBVx_out s x (by omega))
  · have hfit : s.I.toNat + (bcdDigits (s.reg x)).length ≤ Config.memSize := by
      rw [bcdDigits_length, Config.memSize]
      omega
    obtain ⟨t, hexec, hbytes, hframe⟩ := completes_storeBytes (exec_ldBVx_in s x (by omega)) hwf hfit
    obtain ⟨hhundreds, htens, hones⟩ := bcdDigits_toNat (s.reg x)
    have hdigit : ∀ k (hk : k < 3), (t.mem.read (s.I.toNat + k)).toNat = (bcdDigits (s.reg x))[k].toNat :=
      fun k hk => congrArg BitVec.toNat (hbytes k hk)
    exact ⟨t, hexec, (hdigit 0 (by decide)).trans hhundreds, (hdigit 1 (by decide)).trans htens,
      (hdigit 2 (by decide)).trans hones, hframe⟩

/-- Settles O46: the bytes stored at `I` are `V[0]` to `V[x]`. -/
theorem registersAreStored : Obligations.RegistersAreStored := by
  refine ⟨decodesRow_familyF 0x55 fun w hkk => ?_, fun x s hI hout => ?_, fun x s hwf hin => ?_⟩
  · simp [decodeF, hkk]
  · exact raises_memory_0x1000 hI (exec_ldMiVx_out s x (by omega))
  · have hfit : s.I.toNat + (s.regsUpTo x).length ≤ Config.memSize := by
      rw [regsUpTo_length, Config.memSize]
      omega
    obtain ⟨t, hexec, hbytes, hframe⟩ := completes_storeBytes (exec_ldMiVx_in s x (by omega)) hwf hfit
    rw [regsUpTo_length] at hframe
    refine ⟨t, hexec, fun j hj => ?_, hframe⟩
    have hlen : j.val < (s.regsUpTo x).length := by
      rw [regsUpTo_length]
      exact Nat.lt_succ_of_le hj
    rw [hbytes j hlen, regsUpTo_getElem]

/-! ## Loading registers from `I` -/

theorem unchanged_withRegs {p : Part} {s t : State} (regs : Vector Byte 16) :
    Unchanged p s { t with V := regs } ↔ Unchanged p s t := by
  cases p <;> rfl

theorem frameExcept_loadRegsUpTo (s : State) (x : Reg) : FrameExcept (· ≤ x) [] s (s.loadRegsUpTo x) :=
  ⟨fun r hr => by simp [hr], fun p _ => (unchanged_withRegs _).2 (unchanged_refl p s)⟩

/-- Settles O47: the registers up to `x` are replaced by the bytes at `I`, and no other. -/
theorem registersAreLoaded : Obligations.RegistersAreLoaded := by
  refine ⟨decodesRow_familyF 0x65 fun w hkk => ?_, fun x s hI hout => ?_, fun x s hin => ?_⟩
  · simp [decodeF, hkk]
  · exact raises_memory_0x1000 hI (exec_ldVxMi_out s x (by omega))
  · have hloaded : ∀ j : Reg, j ≤ x → (s.loadRegsUpTo x).reg j = s.mem.read (s.I.toNat + j.val) := by
      intro j hj
      simp [hj]
    exact ⟨_, exec_ldVxMi_in s x (by omega), hloaded, rfl, frameExcept_advance.2 (frameExcept_loadRegsUpTo s x)⟩

end Sys2Proof.Proofs.IndexMemory
end

section
/-! The family of 43_display.md: `00E0` clears the screen, and `Dxyn` toggles the pixels under its sprite and writes `VF`, or
raises when a sprite byte lies past `0xFFF` (R190 to R199). -/

namespace Sys2Proof.Proofs.Display

open Sys2Proof.Machine Sys2Proof.Safety Sys2Proof.Laws
open Sys2Proof.Proofs.Flow (decodesRow_family decodesRow_family_byte frameExcept_refl)
open Sys2Proof.Proofs.Alu (frameExcept_advance frameExcept_setReg)
open Sys2Proof.Proofs.IndexMemory (frameExcept_part raises_memory_0x1000)

/-! ## Frames: the screen, and the error record -/

theorem frameExcept_withFB (written : Reg → Prop) (s : State) (fb : FrameBuffer) :
    FrameExcept written [.screen] s { s with FB := fb } :=
  frameExcept_part rfl fun p hp hsame => by
    cases p with
    | screen => exact absurd rfl hp
    | _ => exact hsame

theorem frameExcept_raise (written : Reg → Prop) (s : State) (error : ErrorKind) (info : Word) :
    FrameExcept written [.faultRecord] s (s.raise error info) :=
  frameExcept_part rfl fun p hp hsame => by
    cases p with
    | faultRecord => exact absurd rfl hp
    | _ => exact hsame

/-- Settles O50: the screen of zero rows has no pixel set. -/
theorem clearTurnsEveryPixelOff : Obligations.ClearTurnsEveryPixelOff := by
  refine ⟨decodesRow_family_byte 0x0 0xE0 fun w hop hkk => ?_, fun s => ⟨_, rfl, pixel_clear, rfl, ?_⟩⟩
  · simp [decode, decode0, hop, hkk]
  · exact frameExcept_advance.2 (frameExcept_withFB noReg s _)

/-! ## The Draw Engine draws the sprite at `I` (R192 to R196) -/

/-- Byte `r` of the sprite is its row `r`. -/
theorem readBytes_getD (m : Memory) (a : Nat) {n r : Nat} (hr : r < n) : (m.readBytes a n).getD r 0 = m.read (a + r) := by
  have hlen : r < (m.readBytes a n).length := by rwa [readBytes_length]
  rw [List.getD_eq_getElem _ _ hlen, readBytes_getElem]

/-- The bits of the `n` bytes at `I`, drawn at the wrapped origin (R194), are the sprite bits of the statements. -/
theorem rowsBit_readBytes (s : State) (vx vy : Byte) (n cx cy : Nat) :
    rowsBit (s.mem.readBytes s.I.toNat n) (originX vx) (originY vy) cx cy = spriteBit s vx vy n cx cy := by
  rw [Bool.eq_iff_iff]
  simp only [rowsBit, rowBit, spriteBit, readBytes_length, Bool.and_eq_true, decide_eq_true_eq]
  simp only [originX, originY, Config.displayW, Config.displayH]
  by_cases hrow : vy.toNat % 32 ≤ cy ∧ cy < vy.toNat % 32 + n
  · rw [readBytes_getD _ _ (by omega)]
    simp only [hrow, and_true, true_and]
  · simp only [hrow, and_false, false_and]

theorem pixel_drawSprite (s : State) (vx vy : Byte) (n : Nat) (cx : Fin 64) (cy : Fin 32) :
    FrameBuffer.pixel (s.drawSprite vx vy n).fb cx cy = (s.pixel cx cy ^^ spriteBit s vx vy n cx cy) := by
  rw [← rowsBit_readBytes]
  exact (drawRows_spec _ _ _ _).1 cx cy cx.isLt cy.isLt

theorem hit_drawSprite (s : State) (vx vy : Byte) (n : Nat) :
    (s.drawSprite vx vy n).hit = true ↔ Collides s vx vy n := by
  have hhit := (drawRows_spec (s.mem.readBytes s.I.toNat n) { fb := s.FB, hit := false } (originX vx) (originY vy)).2
  simp only [rowsBit_readBytes, Bool.false_eq_true, false_or] at hhit
  refine hhit.trans ⟨?_, ?_⟩
  · rintro ⟨a, b, ha, hb, hmet⟩
    exact ⟨⟨a, ha⟩, ⟨b, hb⟩, hmet⟩
  · rintro ⟨cx, cy, hmet⟩
    exact ⟨cx, cy, cx.isLt, cy.isLt, hmet⟩

/-! ## The draw instruction -/

/-- The range check comes before the first pixel (R197). -/
theorem raises_drw (x y : Reg) {n : Nat} {s : State} (hI : s.I.toNat ≤ 0xFFF) (hn : 0 < n)
    (hout : 0xFFF < s.I.toNat + (n - 1)) : Raises (.drw x y n) s .memory 0x1000 :=
  raises_memory_0x1000 hI (exec_drw_out s x y hn (by omega))

/-- Settles O51: the screen is the Draw Engine's, and `VF` is written last from its collision. -/
theorem drawTogglesSpritePixels : Obligations.DrawTogglesSpritePixels := by
  refine ⟨decodesRow_family 0xD fun w hop => ?_, fun x y n s => raises_drw x y,
    fun x y n s hfit => ⟨_, exec_drw_in s x y (by omega), pixel_drawSprite s _ _ n, fun hmet => ?_, fun hmet => ?_,
      rfl, ?_⟩⟩
  · simp [decode, hop]
  · simp [(hit_drawSprite s _ _ n).2 hmet, bitFlag]
  · have hhit : (s.drawSprite (s.reg x) (s.reg y) n).hit = false :=
      Bool.eq_false_iff.2 (mt (hit_drawSprite s _ _ n).1 hmet)
    simp [hhit, bitFlag]
  · exact frameExcept_advance.2 (frameExcept_setReg (frameExcept_withFB (· = 15) s _) rfl _)

/-- Settles O52: an error is the record alone, and no row leaves the canvas as it was. -/
theorem drawRangeAndHeightZero : Obligations.DrawRangeAndHeightZero := by
  refine ⟨fun x y n s hI hn hout => ?_, fun x y s => ?_⟩
  · exact ⟨_, raises_drw x y hI hn hout, rfl, rfl, rfl, frameExcept_raise noReg s .memory 0x1000⟩
  · have hexec : exec (.drw x y 0) s = .next (s.setFlag 0).advance := exec_drw_in s x y (.inl rfl)
    exact ⟨_, hexec, by simp, rfl, frameExcept_advance.2 (frameExcept_setReg (frameExcept_refl (· = 15) [] s) rfl 0)⟩

/-! ## Drawing twice (R199) -/

/-- The sprite is read from `I` and memory, which no draw writes. -/
theorem spriteBit_of_frameExcept {written : Reg → Prop} {s t : State} (hframe : FrameExcept written [.screen] s t)
    (vx vy : Byte) (n cx cy : Nat) : spriteBit t vx vy n cx cy = spriteBit s vx vy n cx cy := by
  obtain ⟨-, hparts⟩ := hframe
  have hI : t.I = s.I := hparts .index (by decide)
  have hmem : ∀ a, t.mem.read a = s.mem.read a := hparts .memory (by decide)
  rw [spriteBit, spriteBit, hI, hmem]

/-- A pixel set after its toggle by a sprite bit of 1 is one that the toggle turned on. -/
theorem toggled_on_iff {before bit : Bool} :
    (before ^^ bit) = true ∧ bit = true ↔ before = false ∧ (before ^^ bit) = true := by
  cases before <;> simp

/-- Settles O53: the second draw has the same sprite bits, so each pixel is toggled twice or not at all, and a 1 of the
sprite meets a 1 exactly where the first draw turned a pixel on. -/
theorem drawingTwiceRestoresTheScreen : Obligations.DrawingTwiceRestoresTheScreen := by
  intro x y n s t hfit hexec hx hy
  obtain ⟨-, -, hdraw⟩ := drawTogglesSpritePixels
  obtain ⟨t', hexec', hfirst, -, -, -, hframe⟩ := hdraw x y n s hfit
  obtain rfl : t' = t := Host.Outcome.next.inj (hexec'.symm.trans hexec)
  have hI : t'.I = s.I := hframe.2 .index (by decide)
  obtain ⟨u, hexecu, hsecond, hset, hclear, -, -⟩ := hdraw x y n t' (hI ▸ hfit)
  have hbit := spriteBit_of_frameExcept hframe (s.reg x) (s.reg y) n
  have hon : Collides t' (t'.reg x) (t'.reg y) n ↔
      ∃ (cx : Fin 64) (cy : Fin 32), s.pixel cx cy = false ∧ t'.pixel cx cy = true := by
    simp only [Collides, hx, hy, hbit, hfirst, toggled_on_iff]
  refine ⟨u, hexecu, fun cx cy => ?_, fun h => hset (hon.2 h), fun h => hclear (mt hon.1 h)⟩
  rw [hsecond, hx, hy, hbit, hfirst, Bool.xor_assoc, Bool.xor_self, Bool.xor_false]

end Sys2Proof.Proofs.Display
end

section
/-! The family of 44_keys_timers.md: two skips on a key, which raise when `V[x]` is no key number; the wait for a key, which
completes on a press and holds otherwise; and three instructions that move a timer (R220 to R226). -/

namespace Sys2Proof.Proofs.KeysTimers

open Sys2Proof.Machine Sys2Proof.Safety Sys2Proof.Laws
open Sys2Proof.Proofs.Memory (raises_iff_exec_eq_raise)
open Sys2Proof.Proofs.Flow (decodesRow_family_byte)
open Sys2Proof.Proofs.Alu (frameExcept_advance frameExcept_setReg completes_writeResult)
open Sys2Proof.Proofs.IndexMemory (decodesRow_familyF frameExcept_part)

/-! ## The press that ends a wait (R224) -/

theorem newKeys_getLsbD_eq_false_iff {keys snapshot : Word} {k : Fin 16} :
    (newKeys keys snapshot).getLsbD k = false ↔ (keys.getLsbD k = true → snapshot.getLsbD k = true) := by
  simp [newKeys]

theorem lowestKey_newKeys_eq_none_iff {keys snapshot : Word} :
    lowestKey (newKeys keys snapshot) = none ↔ ∀ k : Fin 16, keys.getLsbD k = true → snapshot.getLsbD k = true := by
  simp only [lowestKey_none, ← newKeys_getLsbD_eq_false_iff, Fin.forall_iff]

theorem lowestKey_newKeys_eq_some {keys snapshot : Word} {k : Fin 16} (hdown : keys.getLsbD k = true)
    (hup : snapshot.getLsbD k = false)
    (hlower : ∀ j : Fin 16, j < k → keys.getLsbD j = true → snapshot.getLsbD j = true) :
    lowestKey (newKeys keys snapshot) = some k.val := by
  have hnew : (newKeys keys snapshot).getLsbD k = true := by
    rw [← Bool.not_eq_false, newKeys_getLsbD_eq_false_iff, hdown, hup]
    decide
  refine List.find?_range_eq_some.2 ⟨hnew, List.mem_range.2 k.isLt, fun j hj => ?_⟩
  rw [newKeys_getLsbD_eq_false_iff.2 (hlower ⟨j, hj.trans k.isLt⟩ hj)]
  rfl

/-! ## Frames: the wait, and the timers -/

theorem frameExcept_withKeyWait (written : Reg → Prop) (s : State) (wait : Bool) (snapshot : Word) :
    FrameExcept written [.keyWait] s { s with WAIT := wait, KSNAP := snapshot } :=
  frameExcept_part rfl fun p hp hsame => by
    cases p with
    | keyWait => exact absurd rfl hp
    | _ => exact hsame

theorem frameExcept_withDT (written : Reg → Prop) (s : State) (v : Byte) :
    FrameExcept written [.delayTimer] s { s with DT := v } :=
  frameExcept_part rfl fun p hp hsame => by
    cases p with
    | delayTimer => exact absurd rfl hp
    | _ => exact hsame

theorem frameExcept_withST (written : Reg → Prop) (s : State) (v : Byte) :
    FrameExcept written [.soundTimer] s { s with ST := v } :=
  frameExcept_part rfl fun p hp hsame => by
    cases p with
    | soundTimer => exact absurd rfl hp
    | _ => exact hsame

/-! ## The wait for a key -/

/-- The completing cycle writes `V[x]` after it has cleared the wait. -/
theorem frameExcept_takeKey (s : State) (x : Reg) (k : Nat) : FrameExcept (· = x) [.keyWait] s (s.takeKey x k) :=
  frameExcept_advance.2 (frameExcept_setReg (frameExcept_withKeyWait (· = x) s false 0) rfl _)

/-- A key number fits `V[x]`. -/
theorem reg_takeKey_toNat (s : State) (x : Reg) (k : Fin 16) : ((s.takeKey x k).reg x).toNat = k.val := by
  have hfits : k.val < 256 := k.isLt.trans (by decide)
  simpa [State.takeKey] using hfits

/-- Settles O56: while waiting, the cycle takes the lowest new key; with no wait yet, or no new key, it holds. -/
theorem waitForKeyTakesTheLowestPress : Obligations.WaitForKeyTakesTheLowestPress := by
  refine ⟨decodesRow_familyF 0x0A fun w hkk => ?_, fun x s k hwait hdown hup hlower => ?_, fun x s hnone => ?_⟩
  · simp [decodeF, hkk]
  · have hkey : lowestKey (newKeys s.KEY s.KSNAP) = some k.val := lowestKey_newKeys_eq_some hdown hup hlower
    exact ⟨_, exec_ldVxK_take s x hwait hkey, reg_takeKey_toNat s x k, rfl, rfl, rfl, frameExcept_takeKey s x k⟩
  · have hhold : s.WAIT = true → lowestKey (newKeys s.KEY s.KSNAP) = none :=
      fun hwait => lowestKey_newKeys_eq_none_iff.2 (hnone hwait)
    exact ⟨_, exec_ldVxK_hold s x hhold, rfl, rfl, rfl, frameExcept_withKeyWait noReg s true s.KEY⟩

/-! ## The skips on a key -/

/-- A skip, with its two targets written out. -/
theorem completes_skipIf {i : Instr} {s : State} {taken : Bool} (hexec : exec i s = .next (s.skipIf taken)) :
    Completes i s fun t => t.pc = (if taken then s.pc + 4 else s.pc + 2) ∧ FrameExcept noReg [] s t := by
  refine ⟨_, hexec, ?_, by simp⟩
  cases taken <;> rfl

/-- A key number that fails its check is recorded as the register's value (R222). -/
theorem raises_keyIndex {i : Instr} {s : State} {v : Byte} (hexec : exec i s = .next (s.raise .keyIndex v.zext)) :
    Raises i s .keyIndex (BitVec.ofNat 16 v.toNat) := by
  rw [raises_iff_exec_eq_raise, hexec, BitVec.ofNat_toNat]
  rfl

/-- Settles O54: the check of the key number answers first; a key number then selects the flag that the skip tests, and
`ExA1` tests its negation. -/
theorem keySkipsTestTheKey : Obligations.KeySkipsTestTheKey := by
  refine ⟨decodesRow_family_byte 0xE 0x9E fun w hop hkk => ?_, decodesRow_family_byte 0xE 0xA1 fun w hop hkk => ?_,
    fun x s hbad => ⟨raises_keyIndex (exec_skp_bad s x hbad), raises_keyIndex (exec_sknp_bad s x hbad)⟩,
    fun x s hkey => ⟨completes_skipIf (exec_skp_key s x hkey), ?_⟩⟩
  · simp [decode, decodeE, hop, hkk]
  · simp [decode, decodeE, hop, hkk]
  · have hskip := completes_skipIf (exec_sknp_key s x hkey)
    simpa only [Bool.not_eq_true', ← Bool.not_eq_true, ite_not] using hskip

/-! ## The timer instructions -/

/-- Settles O55: `Fx07` writes a result; the other two write one timer and advance. -/
theorem timerInstructionsMoveTimers : Obligations.TimerInstructionsMoveTimers := by
  refine ⟨decodesRow_familyF 0x07 fun w hkk => ?_, decodesRow_familyF 0x15 fun w hkk => ?_,
    decodesRow_familyF 0x18 fun w hkk => ?_, fun x s => ⟨completes_writeResult rfl fun t ht => ht, ?_, ?_⟩⟩
  · simp [decodeF, hkk]
  · simp [decodeF, hkk]
  · simp [decodeF, hkk]
  · exact ⟨_, rfl, rfl, rfl, frameExcept_advance.2 (frameExcept_withDT noReg s _)⟩
  · exact ⟨_, rfl, rfl, rfl, frameExcept_advance.2 (frameExcept_withST noReg s _)⟩

end Sys2Proof.Proofs.KeysTimers
end

section
/-! The family of 60_exceptions.md: taking an error writes the record in the state in which the cycle executes, and nothing
else (R253). -/

namespace Sys2Proof.Proofs.Exceptions

open Sys2Proof.Machine Sys2Proof.Safety Sys2Proof.Laws
open Sys2Proof.Proofs.Encoding (fetched_tickBy)

/-! ## An instruction keeps the error record, or raises with no other effect -/

/-- `t` holds the error record of `s`, or is `s` with an error raised. Only the fetch raises a fetch error (R251). -/
def KeepsRecordOrRaises (s t : State) : Prop :=
  t.FAULT = s.FAULT ∨ ∃ error info, error ≠ .fetch ∧ t = s.raise error info

theorem pushJump_keepsRecordOrRaises (s : State) (v target info : Word) :
    KeepsRecordOrRaises s (s.pushJump v target info) := by
  by_cases hfree : s.SP.val < 16
  · rw [pushJump_free s v target info hfree]
    exact .inl rfl
  · exact .inr ⟨_, _, by decide, pushJump_full s v target info (by omega)⟩

theorem popJump_keepsRecordOrRaises (s : State) : KeepsRecordOrRaises s s.popJump := by
  by_cases hsome : 0 < s.SP.val
  · rw [popJump_some s hsome]
    exact .inl rfl
  · exact .inr ⟨_, _, by decide, popJump_empty s (by omega)⟩

theorem accessing_keepsRecordOrRaises {s t : State} (count : Nat) (ht : t.FAULT = s.FAULT) :
    KeepsRecordOrRaises s (s.accessing count t) := by
  obtain ⟨-, hinside⟩ | ⟨-, -, houtside⟩ := accessing_cases s count t
  · exact .inl ((congrArg State.FAULT hinside).trans ht)
  · exact .inr ⟨_, _, by decide, houtside⟩

theorem withKey_keepsRecordOrRaises {s : State} (k : Byte) {effect : Bool → State}
    (heffect : ∀ pressed, (effect pressed).FAULT = s.FAULT) : KeepsRecordOrRaises s (s.withKey k effect) := by
  by_cases hbad : 0xF < k.toNat
  · exact .inr ⟨_, _, by decide, withKey_bad s effect hbad⟩
  · rw [withKey_good s effect (by omega)]
    exact .inl (heffect _)

/-- The eight instructions with a check raise through it or have an effect outside the record; the others have only such an
effect. -/
theorem exec_keepsRecordOrRaises (i : Instr) (s : State) : Completes i s (KeepsRecordOrRaises s) := by
  cases i with
  | ret => exact ⟨_, rfl, popJump_keepsRecordOrRaises s⟩
  | call nnn => exact ⟨_, rfl, pushJump_keepsRecordOrRaises s _ _ _⟩
  | drw x y n => exact ⟨_, rfl, accessing_keepsRecordOrRaises n rfl⟩
  | ldBVx x => exact ⟨_, rfl, accessing_keepsRecordOrRaises 3 rfl⟩
  | ldMiVx x => exact ⟨_, rfl, accessing_keepsRecordOrRaises (x.val + 1) rfl⟩
  | ldVxMi x => exact ⟨_, rfl, accessing_keepsRecordOrRaises (x.val + 1) rfl⟩
  | skp x => exact ⟨_, rfl, withKey_keepsRecordOrRaises (s.reg x) fun _ => rfl⟩
  | sknp x => exact ⟨_, rfl, withKey_keepsRecordOrRaises (s.reg x) fun _ => rfl⟩
  | ldVxK x =>
    refine ⟨_, rfl, .inl ?_⟩
    split <;> rfl
  | _ => exact ⟨_, rfl, .inl rfl⟩

/-- An instruction that leaves a record where there was none has raised it. -/
theorem exec_error {i : Instr} {s t : State} {f : FaultRecord} (hexec : exec i s = .next t) (hrun : s.FAULT = none)
    (herror : t.FAULT = some f) : ∃ error info, error ≠ .fetch ∧ t = s.raise error info := by
  obtain ⟨u, hu, hkeep⟩ := exec_keepsRecordOrRaises i s
  obtain rfl : t = u := Host.Outcome.next.inj (hexec.symm.trans hu)
  refine hkeep.resolve_left fun hsame => ?_
  simp [hsame, hrun] at herror

/-! ## A cycle's error is raised in the state in which the cycle executes -/

/-- The tick alone leaves the executing state with the old `OPC`. -/
theorem tickBy_eq_executing (r : State) : r.tickBy r.TICKS = executing r r.OPC := by
  simp only [State.tickBy, decayed_eq, executing]

/-- A cycle that leaves a record has raised a fetch error with the old `OPC`, or another error with the fetched word. -/
theorem cycle_error {r t : State} {f : FaultRecord} (hcycle : cycle r = .next t) (herror : t.FAULT = some f) :
    t = (executing r r.OPC).raise .fetch r.pc ∨
    ∃ error info, error ≠ .fetch ∧ t = (executing r r.fetchWord).raise error info := by
  rw [← tickBy_eq_executing, ← fetched_tickBy]
  obtain ⟨_, -, hc⟩ | ⟨-, -, hc⟩ | ⟨-, -, -, hc⟩ | ⟨i, hrun, -, -, hc⟩ := cycle_cases r <;> rw [hc] at hcycle
  · cases hcycle
  · exact .inl (Host.Outcome.next.inj hcycle).symm
  · exact .inr ⟨_, _, by decide, (Host.Outcome.next.inj hcycle).symm⟩
  · exact .inr (exec_error hcycle hrun herror)

/-- Settles O12: the state after a raise in the executing state has every field the statement names, and the record tells
the two kinds of `OPC` apart. -/
theorem errorsArePrecise : Obligations.ErrorsArePrecise := by
  intro s t f hstep herror r
  obtain rfl | ⟨error, info, hkind, rfl⟩ := cycle_error hstep herror <;> cases herror
  · exact ⟨rfl, rfl, rfl, fun _ => rfl, fun hne => absurd rfl hne⟩
  · exact ⟨rfl, rfl, rfl, fun heq => absurd heq hkind, fun _ => rfl⟩

end Sys2Proof.Proofs.Exceptions
end

section
/-! The encoder and the decoder are inverse, and both agree with the opcode table (30_encoding.md R71 to R81). -/

namespace Sys2Proof.Proofs.Codec

open Sys2Proof.Safety Sys2Proof.Laws
open Sys2Proof.Proofs.Encoding (decode_eq_none)
open Sys2Proof.Proofs.Flow Sys2Proof.Proofs.Alu Sys2Proof.Proofs.IndexMemory Sys2Proof.Proofs.Display
open Sys2Proof.Proofs.KeysTimers

/-! ## The fields as numbers (R72) -/

theorem opField_toNat (w : Word) : (opField w).toNat = w.toNat / 4096 := by
  have hw : w.toNat < 65536 := w.isLt
  simp only [opField, BitVec.extractLsb'_toNat, Nat.shiftRight_eq_div_pow, Nat.reducePow]
  omega

theorem opField_eq_zero_iff {w : Word} : opField w = 0x0 ↔ w.toNat < 0x1000 := by
  rw [← BitVec.toNat_inj, opField_toNat, show (0x0 : BitVec 4).toNat = 0 from rfl]
  omega

/-- Settles O2: a field is the word shifted down to it and cut to its width. -/
theorem fieldsAreTheirBits : Obligations.FieldsAreTheirBits := by
  intro w
  refine ⟨opField_toNat w, ?_, ?_, ?_, ?_, ?_⟩
  · simp [regOf, xField, Nat.shiftRight_eq_div_pow]
  · simp [regOf, yField, Nat.shiftRight_eq_div_pow]
  · simp [nField]
  · simp [kkField]
  · simp [nnnField]

/-- Settles O1: the decoder is evaluated on each of the words. -/
theorem sampleWordsDecode : Obligations.SampleWordsDecode := by
  unfold Obligations.SampleWordsDecode
  decide

/-- The sixteen families (R74). -/
theorem family_cases : ∀ op : BitVec 4,
    op = 0x0 ∨ op = 0x1 ∨ op = 0x2 ∨ op = 0x3 ∨ op = 0x4 ∨ op = 0x5 ∨ op = 0x6 ∨ op = 0x7 ∨
      op = 0x8 ∨ op = 0x9 ∨ op = 0xA ∨ op = 0xB ∨ op = 0xC ∨ op = 0xD ∨ op = 0xE ∨ op = 0xF := by
  decide

/-! ## Decode of encode -/

/-- Settles O3: every field of a format is read back, and a sprite height of 4 bits is not cut. -/
theorem decodeOfEncodeIsIdentity : Obligations.DecodeOfEncodeIsIdentity := by
  intro i hwf
  cases i with
  | cls => rfl
  | ret => rfl
  | drw x y n =>
    have hn : n % 16 = n := Nat.mod_eq_of_lt (Nat.lt_succ_of_le (of_decide_eq_true hwf))
    simp [decode, encode, hn]
  | _ => simp [decode, decode8, decodeE, decodeF, encode]

/-! ## Encode of decode, family by family -/

section Families

variable {w : Word} {i : Instr} {op n : BitVec 4} {kk : Byte}

theorem fmtNNN_of_op (hop : opField w = op) : fmtNNN op (nnnField w) = w := by
  rw [← hop, fmtNNN_fields]

theorem fmtXKK_of_op (hop : opField w = op) : fmtXKK op (regOf (xField w)) (kkField w) = w := by
  rw [← hop, fmtXKK_fields]

theorem fmtXKK_of_key (hop : opField w = op) (hkk : kkField w = kk) : fmtXKK op (regOf (xField w)) kk = w := by
  rw [← hkk, fmtXKK_of_op hop]

theorem fmtXYN_of_key (hop : opField w = op) (hn : nField w = n) :
    fmtXYN op (regOf (xField w)) (regOf (yField w)) n = w := by
  rw [← hop, ← hn, fmtXYN_fields]

/-- Family `0` does not read bits 11:8 (R75). -/
theorem encode_of_decode0 (hop : opField w = 0x0) (hi : decode0 w = some i) :
    i.wf = true ∧ encode i = w &&& 0xF0FF := by
  rw [mask_family_byte, hop]
  unfold decode0 at hi
  split at hi
  · next hkk => cases hi; rw [hkk]; exact ⟨rfl, rfl⟩
  · split at hi
    · next hkk => cases hi; rw [hkk]; exact ⟨rfl, rfl⟩
    · cases hi

theorem encode_of_decode8 (hop : opField w = 0x8) (hi : decode8 w = some i) : i.wf = true ∧ encode i = w := by
  simp only [decode8] at hi
  repeat' split at hi
  all_goals cases hi
  all_goals exact ⟨rfl, fmtXYN_of_key hop ‹_›⟩

theorem encode_of_decodeE (hop : opField w = 0xE) (hi : decodeE w = some i) : i.wf = true ∧ encode i = w := by
  simp only [decodeE] at hi
  repeat' split at hi
  all_goals cases hi
  all_goals exact ⟨rfl, fmtXKK_of_key hop ‹_›⟩

theorem encode_of_decodeF (hop : opField w = 0xF) (hi : decodeF w = some i) : i.wf = true ∧ encode i = w := by
  simp only [decodeF] at hi
  repeat' split at hi
  all_goals cases hi
  all_goals exact ⟨rfl, fmtXKK_of_key hop ‹_›⟩

/-- A word that is not of family `0` has every bit read. -/
theorem encode_of_decode (hop : opField w ≠ 0x0) (hi : decode w = some i) : i.wf = true ∧ encode i = w := by
  obtain h | h | h | h | h | h | h | h | h | h | h | h | h | h | h | h := family_cases (opField w) <;>
    simp only [decode, h, BitVec.reduceEq, ↓reduceIte, Option.ite_none_right_eq_some] at hi
  · exact absurd h hop
  · cases hi; exact ⟨rfl, fmtNNN_of_op h⟩
  · cases hi; exact ⟨rfl, fmtNNN_of_op h⟩
  · cases hi; exact ⟨rfl, fmtXKK_of_op h⟩
  · cases hi; exact ⟨rfl, fmtXKK_of_op h⟩
  · obtain ⟨hn, hi⟩ := hi; cases hi; exact ⟨rfl, fmtXYN_of_key h hn⟩
  · cases hi; exact ⟨rfl, fmtXKK_of_op h⟩
  · cases hi; exact ⟨rfl, fmtXKK_of_op h⟩
  · exact encode_of_decode8 h hi
  · obtain ⟨hn, hi⟩ := hi; cases hi; exact ⟨rfl, fmtXYN_of_key h hn⟩
  · cases hi; exact ⟨rfl, fmtNNN_of_op h⟩
  · cases hi; exact ⟨rfl, fmtNNN_of_op h⟩
  · cases hi; exact ⟨rfl, fmtXKK_of_op h⟩
  · cases hi
    have hn : (nField w).toNat ≤ 15 := Nat.le_of_lt_succ (nField w).isLt
    exact ⟨decide_eq_true hn, fmtXYN_of_key h (by simp)⟩
  · exact encode_of_decodeE h hi
  · exact encode_of_decodeF h hi

end Families

/-- Settles O4: a value below `0x1000` is family `0`, the one whose bits 11:8 are not read. -/
theorem encodeOfDecodeIsTheWord : Obligations.EncodeOfDecodeIsTheWord := by
  intro w i hi
  by_cases hop : opField w = 0x0
  · rw [if_pos (opField_eq_zero_iff.1 hop)]
    exact encode_of_decode0 hop (by simpa [decode, hop] using hi)
  · rw [if_neg (mt opField_eq_zero_iff.2 hop)]
    exact encode_of_decode hop hi

/-! ## The opcode table (R81) -/

/-- Every word of a row decodes to an instruction with the row's mnemonic. -/
def RowSound (row : OpcodeRow) : Prop := ∀ w, row.holds w = true → (decode w).map Instr.mnemonic = some row.mnemonic

theorem RowSound.of {m : String} {mask pattern : Word} {f : Word → Instr} (hrow : DecodesRow mask pattern f)
    (hm : ∀ w, (f w).mnemonic = m := by exact fun _ => rfl) : RowSound ⟨m, mask, pattern⟩ := by
  intro w hw
  rw [hrow w (beq_iff_eq.1 hw), Option.map_some, hm]

/-- The settled statement about each instruction says what the words of its row decode to. -/
theorem rowSound_of_mem : ∀ row ∈ opcodeTable, RowSound row := by
  obtain ⟨cls, -⟩ := clearTurnsEveryPixelOff
  obtain ⟨ret, -⟩ := returnPopsOrUnderflows
  obtain ⟨jp, -⟩ := jumpWritesTarget
  obtain ⟨call, -⟩ := callPushesOrOverflows
  obtain ⟨seImm, sneImm, -⟩ := immediateSkips
  obtain ⟨seReg, sneReg, -⟩ := registerSkips
  obtain ⟨ldImm, ldReg, -⟩ := loadsWriteTheRegister
  obtain ⟨addImm, -⟩ := addImmediateWraps
  obtain ⟨or, and, xor, -⟩ := logicIsBitwiseWithoutFlag
  obtain ⟨addReg, -⟩ := addSetsCarry
  obtain ⟨sub, subn, -⟩ := subtractsAreAbsoluteDifferences
  obtain ⟨shr, shl, -⟩ := shiftsMoveOneBit
  obtain ⟨ldI, -⟩ := loadIndexWritesAddress
  obtain ⟨jpV0, -⟩ := offsetJumpAddsV0
  obtain ⟨rnd, -⟩ := randomByteIsMasked
  obtain ⟨drw, -⟩ := drawTogglesSpritePixels
  obtain ⟨skp, sknp, -⟩ := keySkipsTestTheKey
  obtain ⟨ldVxDt, ldDtVx, ldStVx, -⟩ := timerInstructionsMoveTimers
  obtain ⟨ldVxK, -⟩ := waitForKeyTakesTheLowestPress
  obtain ⟨addIVx, -⟩ := addIndexMasksAndFlags
  obtain ⟨ldFVx, -⟩ := glyphAddressIsFiveTimes
  obtain ⟨ldBVx, -⟩ := decimalDigitsAreStored
  obtain ⟨ldMiVx, -⟩ := registersAreStored
  obtain ⟨ldVxMi, -⟩ := registersAreLoaded
  simp only [opcodeTable, List.cons_append, List.nil_append, List.forall_mem_cons]
  exact ⟨.of cls, .of ret, .of jp, .of call, .of seImm, .of sneImm, .of seReg, .of sneReg, .of ldImm, .of addImm,
    .of ldReg, .of or, .of and, .of xor, .of addReg, .of sub, .of shr, .of subn, .of shl, .of ldI, .of jpV0, .of rnd,
    .of drw, .of skp, .of sknp, .of ldVxDt, .of ldVxK, .of ldDtVx, .of ldStVx, .of addIVx, .of ldFVx, .of ldBVx,
    .of ldMiVx, .of ldVxMi, fun _ h => nomatch h⟩

/-- A list without repetition whose members are exactly the value of `o` is that value alone, or empty. -/
theorem eq_toList_of_mem_iff {α : Type} {l : List α} {o : Option α} (hl : l.Nodup) (h : ∀ a, a ∈ l ↔ o = some a) :
    l = o.toList := by
  cases o with
  | none => exact List.eq_nil_iff_forall_not_mem.2 fun a ha => nomatch (h a).1 ha
  | some b =>
    have hperm : l.Perm [b] := (List.perm_ext_iff_of_nodup hl (List.nodup_singleton b)).2 fun a => by simp [h, eq_comm]
    exact List.perm_singleton.1 hperm

/-- Settles O5: the rows that hold a word all bear the mnemonic of what it decodes to, no two rows bear the same one, and
a word in no row decodes to nothing. -/
theorem decoderAgreesWithOpcodeTable : Obligations.DecoderAgreesWithOpcodeTable := by
  intro w
  have hnodup : ((opcodeTable.filter fun row => row.holds w).map OpcodeRow.mnemonic).Nodup :=
    (show (opcodeTable.map OpcodeRow.mnemonic).Nodup by decide).sublist (List.filter_sublist.map _)
  refine eq_toList_of_mem_iff hnodup fun m => ⟨fun hm => ?_, fun hm => ?_⟩
  · obtain ⟨row, hrow, rfl⟩ := List.mem_map.1 hm
    obtain ⟨hmem, hholds⟩ := List.mem_filter.1 hrow
    exact rowSound_of_mem row hmem w hholds
  · have hheld : ∃ row ∈ opcodeTable, row.holds w = true := by
      by_contra hnone
      rw [decode_eq_none (by simpa using hnone)] at hm
      cases hm
    obtain ⟨row, hmem, hholds⟩ := hheld
    obtain rfl : row.mnemonic = m := Option.some.inj ((rowSound_of_mem row hmem w hholds).symm.trans hm)
    exact List.mem_map_of_mem (List.mem_filter.2 ⟨hmem, hholds⟩)

end Sys2Proof.Proofs.Codec
end

section
/-! The host's side of a cycle: its moves, its reset, the tick, and when a step runs, raises at the fetch or stops
(10_state.md section 13, 30_encoding.md R70, 60_exceptions.md R254, R265, R270 to R276). -/

namespace Sys2Proof.Proofs.HostMoves

open Sys2Proof.Machine Sys2Proof.Safety Sys2Proof.Laws
open Sys2Proof.Proofs.Encoding (fetched_tickBy)
open Sys2Proof.Proofs.Exceptions (tickBy_eq_executing)

/-! ## The step (R70) -/

/-- Settles O6: the cycle executes the decoded word in the ticked state with `OPC` that word. -/
theorem stepRunsDecodedInstruction : Obligations.StepRunsDecodedInstruction := by
  intro s i r w hrun hpc hdecode
  have hcycle : step s = exec i (r.tickBy r.TICKS).fetched := cycle_exec r hrun hpc hdecode
  rw [hcycle, fetched_tickBy]
  rfl

/-- Settles O9: the fetch error is raised in the ticked state, whose `OPC` is the old one. -/
theorem fetchPastTheEndRaises : Obligations.FetchPastTheEndRaises := by
  intro s r hrun hpc
  have hcycle : step s = .next ((r.tickBy r.TICKS).raise .fetch r.pc) := cycle_fetch_error r hrun hpc
  rw [hcycle, tickBy_eq_executing]
  rfl

/-! ## The host's moves (R270, R271, R276) -/

theorem receive_of_noReset {s : State} (hreset : s.nextInput.reset = none) :
    s.receive = { s with
      KEY := s.nextInput.keys.getD s.KEY, TICKS := s.nextInput.ticks, RNG := s.nextInput.rng,
      inputs := s.inputs.tail, cycles := s.cycles + 1 } := by
  obtain ⟨-, hreceive⟩ | ⟨q, hsome, -⟩ := receive_cases s
  · exact hreceive
  · exact nomatch hreset.symm.trans hsome

theorem nextInput_of_cons {s : State} {inp : HostInput} {rest : List HostInput} (hinputs : s.inputs = inp :: rest) :
    s.nextInput = inp := by
  rw [State.nextInput, hinputs, List.headD_cons]

/-- Settles O7: the head of the queue is the next input, and its reset, if it holds one, comes before its key write. -/
theorem hostInputsReachTheCycle : Obligations.HostInputsReachTheCycle := by
  intro s inp rest hinputs r
  obtain rfl : s.nextInput = inp := nextInput_of_cons hinputs
  have hrest : s.inputs.tail = rest := by rw [hinputs, List.tail_cons]
  refine ⟨rfl, rfl, hrest, rfl, fun hreset => ?_, fun q hreset => ?_⟩
  · have hr : r = _ := receive_of_noReset hreset
    rw [hr]
    exact ⟨rfl, rfl⟩
  · have hr : s.maybeReset s.nextInput.reset = s.hostReset q := congrArg s.maybeReset hreset
    have hmem : r.mem = resetMemory q := congrArg State.mem hr
    exact ⟨congrArg (fun t => s.nextInput.keys.getD (State.KEY t)) hr, congrArg State.FAULT hr, congrArg State.pc hr,
      fun a => by rw [hmem]⟩

/-! ## The halted core (R254) -/

theorem step_halted {s : State} {r : FaultRecord} (hfault : s.FAULT = some r) (hreset : s.nextInput.reset = none) :
    step s = .fault (.halted r) := by
  refine cycle_halted s.receive ?_
  rw [receive_of_noReset hreset, hfault]

/-- Settles O10: the first step stops the run. -/
theorem haltedCoreStaysHalted : Obligations.HaltedCoreStaysHalted :=
  fun _ _ n hfault hreset => run_fault n (step_halted hfault hreset)

/-- Settles O11: a cycle stops only on a record, which the host's moves have kept and a reset would have removed. -/
theorem onlyHaltedCoreStops : Obligations.OnlyHaltedCoreStops := by
  intro s
  obtain ⟨f, hfault, hstop⟩ | ⟨-, -, hnext⟩ | ⟨-, -, -, hnext⟩ | ⟨i, -, -, -, hexec⟩ := cycle_cases s.receive
  · refine .inr ⟨f, ?_⟩
    obtain ⟨hreset, hreceive⟩ | ⟨q, -, hreceive⟩ := receive_cases s
    · rw [hreceive] at hfault
      exact ⟨hfault, hreset, hstop⟩
    · rw [hreceive] at hfault
      exact nomatch hfault
  · exact .inl ⟨_, hnext⟩
  · exact .inl ⟨_, hnext⟩
  · obtain ⟨t, ht⟩ := exec_next (s.receive.tickBy s.receive.TICKS).fetched i
    exact .inl ⟨t, hexec.trans ht⟩

/-! ## Reset (10_state.md R37, 70_reset_and_hazards.md R290) -/

/-- The font lies below the image. -/
theorem read_resetMemory_font (q : ResetRequest) {a : Nat} (ha : a < 80) : (resetMemory q).read a = q.font[a] := by
  rw [read_resetMemory, dif_neg (by omega), dif_pos ha]

/-- An image byte that is not cut off. -/
theorem read_resetMemory_image (q : ResetRequest) {j : Nat} (hj : j < q.image.length) (hfit : j < 3584) :
    (resetMemory q).read (0x200 + j) = q.image[j] := by
  have hin : 0x200 ≤ 0x200 + j ∧ 0x200 + j < 0x200 + (q.image.take Config.maxImage).length := by
    rw [List.length_take, Config.maxImage]
    omega
  rw [read_resetMemory, dif_pos hin, List.getElem_take]
  simp

/-- A byte of neither is the last fill cell that names its address, or `resetFill` (log 5). -/
theorem read_resetMemory_fill (q : ResetRequest) {a : Nat} (hfont : 80 ≤ a) (hlast : a ≤ 0xFFF)
    (himage : a < 0x200 ∨ 0x200 + q.image.length ≤ a) :
    (resetMemory q).read a = ((q.fill.reverse.find? fun c => c.1 == a).map Prod.snd).getD resetFill := by
  have hout : ¬ (0x200 ≤ a ∧ a < 0x200 + (q.image.take Config.maxImage).length) := by
    rw [List.length_take]
    omega
  have hunlisted : Memory.read [] a = resetFill := if_neg (by rw [Config.fontBytes]; omega)
  rw [read_resetMemory, dif_neg hout, dif_neg (by omega), read_fillCells rfl a hlast, hunlisted]

/-- Settles O14: the three ranges of memory, and every other piece by the reset state's own value. -/
theorem hostResetSetsEveryPiece : Obligations.HostResetSetsEveryPiece := by
  intro s q t
  have hstack : ∀ j : Fin 16, t.S[j] = 0 := by simp [t]
  have hfont : ∀ (d : Fin 16) (row : Fin 5),
      q.font[d.val * 5 + row.val]? = some (t.mem.read (d.val * 5 + row.val)) := by
    intro d row
    have hlt : d.val * 5 + row.val < 80 := by omega
    rw [hostReset_mem, read_resetMemory_font q hlt, Vector.getElem?_eq_getElem hlt]
  have himage : ∀ j, j < q.image.length → j < 3584 → q.image[j]? = some (t.mem.read (0x200 + j)) := by
    intro j hj hfit
    rw [hostReset_mem, read_resetMemory_image q hj hfit, List.getElem?_eq_getElem hj]
  exact ⟨reg_hostReset s q, rfl, rfl, rfl, hstack, rfl, rfl, pixel_clear, rfl, rfl, rfl, rfl, rfl, rfl,
    resetMemory_wf q, hfont, himage, fun a => read_resetMemory_fill q⟩

/-! ## The Timing Driver (R265) -/

/-- Settles O15: decaying is a saturating subtraction, which adds up. -/
theorem tickAppliesAllWindowsAtOnce : Obligations.TickAppliesAllWindowsAtOnce := by
  intro s k t
  refine ⟨decayed_toNat s.DT k, decayed_toNat s.ST k, rfl, rfl, fun k' => ?_⟩
  simp only [t, State.tickBy, decayed_decayed, Nat.add_assoc]

/-- The windows elapsed are the whole part of the time since `TREF`, in windows. -/
theorem windowsElapsed_eq_floor (s : State) (now : Rat) : s.windowsElapsed now = ⌊now * 60 - s.TREF⌋₊ := by
  rw [State.windowsElapsed, Config.timerHz, Nat.cast_ofNat]
  exact Int.floor_toNat (now * 60 - (s.TREF : Rat))

/-- The whole part of a time not before `TREF` goes up to it and misses less than one window. -/
theorem windowsElapsed_bounds {s : State} {now : Rat} (hnow : (s.TREF : Rat) ≤ now * 60) :
    (s.TREF : Rat) + s.windowsElapsed now ≤ now * 60 ∧ now * 60 < (s.TREF : Rat) + s.windowsElapsed now + 1 := by
  rw [windowsElapsed_eq_floor]
  have hle := Nat.floor_le (sub_nonneg.2 hnow)
  have hlt := Nat.lt_floor_add_one (now * 60 - s.TREF)
  constructor <;> linarith

theorem windowsElapsed_eq_zero {s : State} {now : Rat} (hnow : now * 60 < (s.TREF : Rat) + 1) :
    s.windowsElapsed now = 0 := by
  rw [windowsElapsed_eq_floor, Nat.floor_eq_zero]
  linarith

theorem tickBy_zero (s : State) : s.tickBy 0 = s := by
  simp [State.tickBy, decayed_eq]

/-- Settles O16: the fraction that is left is less than one window, so the second tick is a tick by none. -/
theorem clockTickKeepsTheFraction : Obligations.ClockTickKeepsTheFraction := by
  intro s now hnow t
  have htref : (t.TREF : Rat) = s.TREF + s.windowsElapsed now := Nat.cast_add ..
  obtain ⟨hle, hlt⟩ := windowsElapsed_bounds hnow
  rw [← htref] at hle hlt
  exact ⟨hle, hlt, by rw [windowsElapsed_eq_zero hlt, tickBy_zero]⟩

end Sys2Proof.Proofs.HostMoves
end

section
/-! The invariant of a run: it holds after every reset, and every step keeps it, whatever the host does (10_state.md
sections 3, 4 and 11, 60_exceptions.md section 1). -/

namespace Sys2Proof.Proofs.Invariant

open Sys2Proof.Machine Sys2Proof.Safety Sys2Proof.Laws
open Sys2Proof.Proofs.IndexMemory (bcdDigits_length regsUpTo_length)

/-! ## Reset -/

theorem inv_resetWith (q : ResetRequest) : Inv (State.resetWith q) where
  memory := resetMemory_wf q
  index := Nat.zero_le _
  counter := by simp
  returns := fun j hj => absurd hj (Nat.not_lt_zero _)
  noSnapshot := fun _ => rfl
  waiting := fun hwait => nomatch hwait
  record := fun _ hfault => nomatch hfault

theorem inv_reset : Inv State.reset where
  memory := rfl
  index := Nat.zero_le _
  counter := by simp [State.reset]
  returns := fun j hj => absurd hj (Nat.not_lt_zero _)
  noSnapshot := fun _ => rfl
  waiting := fun hwait => nomatch hwait
  record := fun _ hfault => nomatch hfault

/-- Settles O17: the reset states hold nothing but a canonical memory. -/
theorem invariantHoldsAtReset : Obligations.InvariantHoldsAtReset := ⟨inv_reset, inv_resetWith⟩

/-! ## Fields the invariant does not speak of -/

/-- The registers, the screen, the keys, the timers and the host's inputs may be anything. -/
theorem inv_withUnspoken {s : State} {V : Vector Byte 16} {FB : FrameBuffer} {KEY : Word} {DT ST RNG : Byte}
    {TREF TICKS cycles : Nat} {inputs : List HostInput} (hinv : Inv s) :
    Inv { s with V := V, FB := FB, KEY := KEY, DT := DT, ST := ST, TREF := TREF, TICKS := TICKS, RNG := RNG,
                 inputs := inputs, cycles := cycles } := by
  obtain ⟨hmem, hindex, hpc, hstack, hsnap, hwait, hrecord⟩ := hinv
  exact ⟨hmem, hindex, hpc, hstack, hsnap, hwait, hrecord⟩

theorem inv_receive {s : State} (hinv : Inv s) : Inv s.receive := by
  obtain ⟨-, hreceive⟩ | ⟨q, -, hreceive⟩ := receive_cases s <;> rw [hreceive]
  · exact inv_withUnspoken hinv
  · exact inv_withUnspoken (s := State.resetWith q) (inv_resetWith q)

theorem inv_tickBy {s : State} (hinv : Inv s) (k : Nat) : Inv (s.tickBy k) :=
  inv_withUnspoken hinv

/-- A fetch in a core that runs: no record speaks of `OPC` yet. -/
theorem inv_fetched {s : State} (hinv : Inv s) (hrun : s.FAULT = none) : Inv s.fetched := by
  obtain ⟨hmem, hindex, hpc, hstack, hsnap, hwait, -⟩ := hinv
  exact ⟨hmem, hindex, hpc, hstack, hsnap, hwait, fun r hr => nomatch hrun.symm.trans hr⟩

/-! ## Taking an error -/

/-- An error record is precise, and only a core that waits for no key may be halted. -/
theorem inv_raise {s : State} (hinv : Inv s) (hidle : s.WAIT = false) (error : ErrorKind) (info : Word) :
    Inv (s.raise error info) := by
  obtain ⟨hmem, hindex, hpc, hstack, hsnap, -, -⟩ := hinv
  refine ⟨hmem, hindex, hpc, hstack, hsnap, fun hwait => (nomatch hidle.symm.trans hwait), fun r hr => ?_⟩
  cases hr
  exact ⟨rfl, rfl⟩

/-! ## Executing while no `Fx0A` waits -/

/-- The core is at an instruction it has fetched, and no `Fx0A` waits. -/
structure Ready (s : State) : Prop where
  inv : Inv s
  running : s.FAULT = none
  fetchable : s.pc.toNat ≤ 0xFFE
  idle : s.WAIT = false

section Effects

variable {s : State} (h : Ready s)

include h

theorem Ready.withUnspoken {V : Vector Byte 16} {FB : FrameBuffer} {DT ST : Byte} :
    Ready { s with V := V, FB := FB, DT := DT, ST := ST } :=
  ⟨inv_withUnspoken h.inv, h.running, h.fetchable, h.idle⟩

theorem Ready.setReg (x : Reg) (v : Byte) : Ready (s.setReg x v) := h.withUnspoken

theorem Ready.loadRegsUpTo (x : Reg) : Ready (s.loadRegsUpTo x) := h.withUnspoken

theorem Ready.setIndex {v : Word} (hv : v.toNat ≤ 0xFFF) : Ready (s.setIndex v) := by
  obtain ⟨⟨hmem, -, hpc, hstack, hsnap, hwait, hrecord⟩, hrun, hfetch, hidle⟩ := h
  exact ⟨⟨hmem, hv, hpc, hstack, hsnap, hwait, hrecord⟩, hrun, hfetch, hidle⟩

theorem Ready.withMem {m : Memory} (hm : m.wf = true) : Ready { s with mem := m } := by
  obtain ⟨⟨-, hindex, hpc, hstack, hsnap, -, hrecord⟩, hrun, hfetch, hidle⟩ := h
  exact ⟨⟨hm, hindex, hpc, hstack, hsnap, fun hwait => (nomatch hidle.symm.trans hwait), hrecord⟩, hrun, hfetch, hidle⟩

theorem Ready.withStack {entries : Vector Word 16} {depth : Fin 17}
    (hentries : ∀ j : Fin 16, j.val < depth.val → entries[j].toNat ≤ 0x1000) :
    Ready { s with S := entries, SP := depth } := by
  obtain ⟨⟨hmem, hindex, hpc, -, hsnap, hwait, hrecord⟩, hrun, hfetch, hidle⟩ := h
  exact ⟨⟨hmem, hindex, hpc, hentries, hsnap, hwait, hrecord⟩, hrun, hfetch, hidle⟩

/-! ### The end of an instruction -/

theorem Ready.raise (error : ErrorKind) (info : Word) : Inv (s.raise error info) := inv_raise h.inv h.idle error info

theorem Ready.jump {target : Word} (htarget : target.toNat ≤ 0x1002) : Inv (s.jump target) := by
  obtain ⟨⟨hmem, hindex, -, hstack, hsnap, -, -⟩, hrun, -, hidle⟩ := h
  exact ⟨hmem, hindex, htarget, hstack, hsnap, fun hwait => (nomatch hidle.symm.trans hwait),
    fun r hr => nomatch hrun.symm.trans hr⟩

theorem Ready.advance : Inv s.advance :=
  h.jump (by have := h.fetchable; bv_omega)

theorem Ready.skipIf (taken : Bool) : Inv (s.skipIf taken) :=
  h.jump (by have := h.fetchable; cases taken <;> simp <;> bv_omega)

/-! ### The instructions with a check -/

theorem Ready.pushJump (nnn : Addr) (info : Word) : Inv (s.pushJump (s.pc + 2) (immAddr nnn) info) := by
  by_cases hfree : s.SP.val < 16
  · rw [pushJump_free s _ _ _ hfree]
    refine (h.withStack fun j hj => ?_).jump (by have := addr_le nnn; simp; omega)
    rw [Fin.getElem_fin, Vector.getElem_set]
    split
    · have := h.fetchable
      bv_omega
    · exact h.inv.returns j (by dsimp only at hj; omega)
  · rw [pushJump_full s _ _ _ (by omega)]
    exact h.raise _ _

theorem Ready.popJump : Inv s.popJump := by
  by_cases hsome : 0 < s.SP.val
  · rw [popJump_some s hsome]
    have htop : (s.S[s.SP.val - 1]'(by omega)).toNat ≤ 0x1000 :=
      h.inv.returns ⟨s.SP.val - 1, by omega⟩ (by dsimp only; omega)
    exact (h.withStack fun j hj => h.inv.returns j (by dsimp only at hj; omega)).jump (htop.trans (by decide))
  · rw [popJump_empty s (by omega)]
    exact h.raise _ _

theorem Ready.accessing {count : Nat} {t : State} (ht : count = 0 ∨ s.I.toNat + count ≤ 4096 → Inv t) :
    Inv (s.accessing count t) := by
  obtain ⟨hin, heq⟩ | ⟨-, -, heq⟩ := accessing_cases s count t <;> rw [heq]
  · exact ht hin
  · exact h.raise _ _

theorem Ready.withKey (k : Byte) {effect : Bool → State} (heffect : ∀ pressed, Inv (effect pressed)) :
    Inv (s.withKey k effect) := by
  by_cases hbad : 0xF < k.toNat
  · rw [withKey_bad s effect hbad]
    exact h.raise _ _
  · rw [withKey_good s effect (by omega)]
    exact heffect _

/-- Storing bytes at `I` and advancing. -/
theorem Ready.storing {count : Nat} {vs : List Byte} (hcount : vs.length = count) (hpos : 0 < count) :
    Inv (s.accessing count ({ s with mem := s.mem.storeBytes s.I.toNat vs } : State).advance) := by
  refine h.accessing fun hin => (h.withMem ?_).advance
  exact storeBytes_wf h.inv.memory (by rw [Config.memSize]; omega)

end Effects

/-- Every instruction but `Fx0A`, by the operations it is made of. -/
theorem inv_exec {i : Instr} {s : State} (h : Ready s) (hi : ∀ x, i ≠ .ldVxK x) : Completes i s Inv := by
  cases i with
  | cls => exact ⟨_, rfl, h.withUnspoken.advance⟩
  | ret => exact ⟨_, rfl, h.popJump⟩
  | jp nnn => exact ⟨_, rfl, h.jump (by have := addr_le nnn; simp; omega)⟩
  | call nnn => exact ⟨_, rfl, h.pushJump nnn _⟩
  | jpV0 nnn => exact ⟨_, rfl, h.jump (by simp; omega)⟩
  | seImm | sneImm | seReg | sneReg => exact ⟨_, rfl, h.skipIf _⟩
  | ldImm | addImm | ldReg | orReg | andReg | xorReg | rnd | ldVxDt => exact ⟨_, rfl, (h.setReg _ _).advance⟩
  | addReg | sub | shr | subn | shl => exact ⟨_, rfl, ((h.setReg _ _).setReg _ _).advance⟩
  | ldI nnn => exact ⟨_, rfl, (h.setIndex (by have := addr_le nnn; simp; omega)).advance⟩
  | addIVx x => exact ⟨_, rfl, ((h.setIndex (by simp; omega)).setReg _ _).advance⟩
  | ldFVx x => exact ⟨_, rfl, (h.setIndex (by have := (s.reg x).isLt; simp; omega)).advance⟩
  | ldDtVx x => exact ⟨_, rfl, h.withUnspoken.advance⟩
  | ldStVx x => exact ⟨_, rfl, h.withUnspoken.advance⟩
  | drw x y n => exact ⟨_, rfl, h.accessing fun _ => (h.withUnspoken.setReg _ _).advance⟩
  | ldBVx x => exact ⟨_, rfl, h.storing (bcdDigits_length _) (by decide)⟩
  | ldMiVx x => exact ⟨_, rfl, h.storing (regsUpTo_length s x) (Nat.succ_pos _)⟩
  | ldVxMi x => exact ⟨_, rfl, h.accessing fun _ => (h.loadRegsUpTo x).advance⟩
  | skp x => exact ⟨_, rfl, h.withKey _ fun _ => h.skipIf _⟩
  | sknp x => exact ⟨_, rfl, h.withKey _ fun _ => h.skipIf _⟩
  | ldVxK x => exact absurd rfl (hi x)

/-! ## `Fx0A`, waiting or not -/

theorem inv_takeKey {s : State} (hinv : Inv s) (hrun : s.FAULT = none) (hfetch : s.pc.toNat ≤ 0xFFE) (x : Reg)
    (k : Nat) : Inv (s.takeKey x k) := by
  obtain ⟨hmem, hindex, hpc, hstack, -, -, hrecord⟩ := hinv
  have hready : Ready { s with WAIT := false, KSNAP := 0 } :=
    ⟨⟨hmem, hindex, hpc, hstack, fun _ => rfl, fun hwait => (nomatch hwait), hrecord⟩, hrun, hfetch, rfl⟩
  exact (hready.setReg x _).advance

theorem inv_holdForKey {s : State} (hinv : Inv s) (hrun : s.FAULT = none) (hfetch : s.pc.toNat ≤ 0xFFE) {x : Reg}
    (hdecode : decode s.fetchWord = some (.ldVxK x)) : Inv s.holdForKey := by
  obtain ⟨hmem, hindex, hpc, hstack, -, -, hrecord⟩ := hinv
  exact ⟨hmem, hindex, hpc, hstack, fun hidle => (nomatch hidle), fun _ => ⟨hrun, hfetch, x, hdecode⟩, hrecord⟩

theorem inv_exec_ldVxK {s : State} (hinv : Inv s) (hrun : s.FAULT = none) (hfetch : s.pc.toNat ≤ 0xFFE) {x : Reg}
    (hdecode : decode s.fetchWord = some (.ldVxK x)) : Completes (.ldVxK x) s Inv := by
  refine ⟨_, rfl, ?_⟩
  split
  · exact inv_takeKey hinv hrun hfetch x _
  · exact inv_holdForKey hinv hrun hfetch hdecode

/-! ## The cycle -/

/-- A core that waits is at an `Fx0A`. -/
theorem idle_of_decode_ne {s : State} (hinv : Inv s) (hdecode : ∀ x, decode s.fetchWord ≠ some (.ldVxK x)) :
    s.WAIT = false := by
  by_contra hwait
  obtain ⟨-, -, x, hx⟩ := hinv.waiting (Bool.eq_true_of_not_eq_false hwait)
  exact hdecode x hx

theorem inv_cycle {s t : State} (hinv : Inv s) (hcycle : cycle s = .next t) : Inv t := by
  have hticked : Inv (s.tickBy s.TICKS) := inv_tickBy hinv _
  obtain ⟨r, -, hc⟩ | ⟨hrun, hpc, hc⟩ | ⟨hrun, hpc, hdecode, hc⟩ | ⟨i, hrun, hpc, hdecode, hc⟩ := cycle_cases s <;>
    rw [hc] at hcycle
  · cases hcycle
  · cases hcycle
    have hidle : s.WAIT = false := by
      by_contra hwait
      obtain ⟨-, hle, -⟩ := hinv.waiting (Bool.eq_true_of_not_eq_false hwait)
      omega
    exact inv_raise hticked hidle _ _
  · cases hcycle
    have hidle : s.WAIT = false := idle_of_decode_ne hinv fun x hx => nomatch hdecode.symm.trans hx
    exact inv_raise (inv_fetched hticked hrun) hidle _ _
  · have hfetched := inv_fetched hticked hrun
    have hcompletes : Completes i (s.tickBy s.TICKS).fetched Inv := by
      by_cases hi : ∃ x, i = .ldVxK x
      · obtain ⟨x, rfl⟩ := hi
        exact inv_exec_ldVxK hfetched hrun hpc hdecode
      · have hne : ∀ x, i ≠ .ldVxK x := fun x hx => hi ⟨x, hx⟩
        have hidle : s.WAIT = false :=
          idle_of_decode_ne hinv fun x hx => hne x (Option.some.inj (hdecode.symm.trans hx))
        exact inv_exec ⟨hfetched, hrun, hpc, hidle⟩ hne
    obtain ⟨u, hexec, hu⟩ := hcompletes
    obtain rfl : u = t := Host.Outcome.next.inj (hexec.symm.trans hcycle)
    exact hu

/-- Settles O18: the host's moves keep the invariant or set it up anew, and the cycle keeps it. -/
theorem stepKeepsInvariant : Obligations.StepKeepsInvariant :=
  fun _ _ hinv hstep => inv_cycle (inv_receive hinv) hstep

end Sys2Proof.Proofs.Invariant
end

section
/-! What each instruction may write, where it leaves `pc`, and what it does not read (10_state.md sections 2 to 12). -/

namespace Sys2Proof.Proofs.Effects

open Sys2Proof.Machine Sys2Proof.Safety Sys2Proof.Laws
open Sys2Proof.Proofs.Flow Sys2Proof.Proofs.Alu Sys2Proof.Proofs.IndexMemory Sys2Proof.Proofs.Display
open Sys2Proof.Proofs.KeysTimers
open Sys2Proof.Proofs.Exceptions (exec_error)

/-! ## Each instruction stays in its frame -/

/-- From `s` to `t`, only the registers and the parts that `i` may write have changed. -/
def Within (i : Instr) (s t : State) : Prop :=
  (∀ r, isDestination i r = false → (writesFlag i = true → r ≠ 15) → t.reg r = s.reg r) ∧
  ∀ p, mayWrite i p = false → Unchanged p s t

theorem Within.of_frame {i : Instr} {s t : State} {written : Reg → Prop} {parts : List Part}
    (hframe : FrameExcept written parts s t)
    (hwritten : ∀ r, written r → isDestination i r = true ∨ writesFlag i = true ∧ r = 15)
    (hparts : ∀ p ∈ parts, mayWrite i p = true) : Within i s t := by
  obtain ⟨hregs, hrest⟩ := hframe
  refine ⟨fun r hdest hflag => hregs r fun hr => ?_, fun p hp => hrest p fun hmem => ?_⟩
  · obtain hd | ⟨hf, h15⟩ := hwritten r hr
    · exact Bool.noConfusion (hdest.symm.trans hd)
    · exact hflag hf h15
  · exact Bool.noConfusion (hp.symm.trans (hparts p hmem))

section Frames

variable {i : Instr} {s t : State} {q : Part}

theorem Within.of_part (hframe : FrameExcept noReg [q] s t) (hq : mayWrite i q = true) : Within i s t :=
  .of_frame hframe (fun _ hr => hr.elim) fun _ hp => by rwa [List.mem_singleton.1 hp]

theorem Within.of_flag_part (hframe : FrameExcept (· = 15) [q] s t) (hflag : writesFlag i = true)
    (hq : mayWrite i q = true) : Within i s t :=
  .of_frame hframe (fun _ hr => .inr ⟨hflag, hr⟩) fun _ hp => by rwa [List.mem_singleton.1 hp]

theorem Within.of_regs {written : Reg → Prop} (hframe : FrameExcept written [] s t)
    (hwritten : ∀ r, written r → isDestination i r = true ∨ writesFlag i = true ∧ r = 15) : Within i s t :=
  .of_frame hframe hwritten fun _ hp => (nomatch hp)

end Frames

theorem within_jump (i : Instr) (s : State) (target : Word) : Within i s (s.jump target) :=
  .of_regs ((frameExcept_jump target).2 (frameExcept_refl noReg [] s)) fun _ hr => hr.elim

section Checks

variable {i : Instr} {s : State} (hfault : mayWrite i .faultRecord = true)

include hfault

theorem within_raise (error : ErrorKind) (info : Word) : Within i s (s.raise error info) :=
  .of_part (frameExcept_raise noReg s error info) hfault

theorem within_pushJump (hstack : mayWrite i .stack = true) (v target info : Word) :
    Within i s (s.pushJump v target info) := by
  by_cases hfree : s.SP.val < 16
  · rw [pushJump_free s v target info hfree]
    exact .of_part ((frameExcept_jump target).2 (frameExcept_withStack noReg s _ _)) hstack
  · rw [pushJump_full s v target info (by omega)]
    exact within_raise hfault _ _

theorem within_popJump (hstack : mayWrite i .stack = true) : Within i s s.popJump := by
  by_cases hsome : 0 < s.SP.val
  · rw [popJump_some s hsome]
    exact .of_part ((frameExcept_jump _).2 (frameExcept_withStack noReg s s.S _)) hstack
  · rw [popJump_empty s (by omega)]
    exact within_raise hfault _ _

theorem within_accessing {t : State} (count : Nat) (ht : Within i s t) : Within i s (s.accessing count t) := by
  obtain ⟨-, heq⟩ | ⟨-, -, heq⟩ := accessing_cases s count t <;> rw [heq]
  · exact ht
  · exact within_raise hfault _ _

theorem within_withKey (k : Byte) {effect : Bool → State} (heffect : ∀ pressed, Within i s (effect pressed)) :
    Within i s (s.withKey k effect) := by
  by_cases hbad : 0xF < k.toNat
  · rw [withKey_bad s effect hbad]
    exact within_raise hfault _ _
  · rw [withKey_good s effect (by omega)]
    exact heffect _

end Checks

/-- Every instruction, by the frame of the operations it is made of. -/
theorem exec_within (i : Instr) (s : State) : Completes i s (Within i s) := by
  cases i with
  | ret => exact ⟨_, rfl, within_popJump rfl rfl⟩
  | call => exact ⟨_, rfl, within_pushJump rfl rfl _ _ _⟩
  | jp | jpV0 | seImm | sneImm | seReg | sneReg => exact ⟨_, rfl, within_jump _ s _⟩
  | skp | sknp => exact ⟨_, rfl, within_withKey rfl _ fun _ => within_jump _ s _⟩
  | ldImm | addImm | ldReg | orReg | andReg | xorReg | rnd | ldVxDt =>
    exact ⟨_, rfl, .of_regs (frameExcept_writeResult s _ _) fun _ hr => .inl (beq_iff_eq.2 hr)⟩
  | addReg | sub | shr | subn | shl =>
    exact ⟨_, rfl, .of_regs (frameExcept_writeFlagged s _ _ _) fun _ hr => hr.imp beq_iff_eq.2 (.intro rfl)⟩
  | ldVxMi x =>
    refine ⟨_, rfl, within_accessing rfl _ ?_⟩
    exact .of_regs (frameExcept_advance.2 (frameExcept_loadRegsUpTo s x)) fun r hr => .inl (decide_eq_true hr)
  | cls => exact ⟨_, rfl, .of_part (frameExcept_advance.2 (frameExcept_withFB noReg s _)) rfl⟩
  | ldI | ldFVx => exact ⟨_, rfl, .of_part (frameExcept_advance.2 (frameExcept_setIndex noReg s _)) rfl⟩
  | ldDtVx => exact ⟨_, rfl, .of_part (frameExcept_advance.2 (frameExcept_withDT noReg s _)) rfl⟩
  | ldStVx => exact ⟨_, rfl, .of_part (frameExcept_advance.2 (frameExcept_withST noReg s _)) rfl⟩
  | ldBVx | ldMiVx =>
    exact ⟨_, rfl, within_accessing rfl _ (.of_part (frameExcept_advance.2 (frameExcept_withMem s _)) rfl)⟩
  | addIVx x =>
    have hindex := frameExcept_setIndex (· = 15) s (indexSumMasked s.I (s.reg x))
    exact ⟨_, rfl, .of_flag_part (frameExcept_advance.2 (frameExcept_setReg hindex rfl _)) rfl rfl⟩
  | drw x y n =>
    have hdrawn := frameExcept_withFB (· = 15) s (s.drawSprite (s.reg x) (s.reg y) n).fb
    have hframe := frameExcept_advance.2 (frameExcept_setReg hdrawn rfl (bitFlag (s.drawSprite (s.reg x) (s.reg y) n).hit))
    exact ⟨_, rfl, within_accessing rfl n (.of_flag_part hframe rfl rfl)⟩
  | ldVxK x =>
    refine ⟨_, rfl, ?_⟩
    split
    · exact .of_frame (frameExcept_takeKey s x _) (fun _ hr => .inl (beq_iff_eq.2 hr)) fun _ hp =>
        List.mem_singleton.1 hp ▸ rfl
    · exact .of_part (frameExcept_withKeyWait noReg s true s.KEY) rfl

theorem within_of_exec {i : Instr} {s t : State} (hexec : exec i s = .next t) : Within i s t := by
  obtain ⟨u, hu, hwithin⟩ := exec_within i s
  obtain rfl : u = t := Host.Outcome.next.inj (hu.symm.trans hexec)
  exact hwithin

/-- The three instructions that write `I` write a 12-bit value. -/
theorem index_of_exec {i : Instr} {s t : State} (hexec : exec i s = .next t) : t.I = s.I ∨ t.I.toNat ≤ 0xFFF := by
  obtain ⟨-, hparts⟩ := within_of_exec hexec
  cases i with
  | ldI nnn => cases hexec; exact .inr (by have := addr_le nnn; simpa)
  | addIVx x => cases hexec; exact .inr (by simp; omega)
  | ldFVx x => cases hexec; exact .inr (by have := (s.reg x).isLt; simp; omega)
  | _ => exact .inl (hparts .index rfl)

/-- Settles O19: a part that an instruction may not write is outside its frame, and only three write `I`. -/
theorem onlyListedInstructionsWriteEachPart : Obligations.OnlyListedInstructionsWriteEachPart := by
  intro i s t hexec
  obtain ⟨-, hparts⟩ := within_of_exec hexec
  exact ⟨hparts, index_of_exec hexec⟩

/-- Settles O20: a register that is no destination and not the flag is outside the frame. -/
theorem registersChangeOnlyAsNamed : Obligations.RegistersChangeOnlyAsNamed := by
  intro i s t r hexec
  obtain ⟨hregs, -⟩ := within_of_exec hexec
  exact hregs r

/-! ## Where each instruction leaves `pc` (R23) -/

/-- An access that leaves no record has had its effect. -/
theorem accessing_eq_of_running {s t : State} {count : Nat} (hrun : (s.accessing count t).FAULT = none) :
    s.accessing count t = t := by
  obtain ⟨-, heq⟩ | ⟨-, -, heq⟩ := accessing_cases s count t
  · exact heq
  · rw [heq] at hrun
    exact nomatch hrun

theorem skipIf_pc_cases (s : State) (taken : Bool) :
    (s.skipIf taken).pc = s.pc + 2 ∨ (s.skipIf taken).pc = s.pc + 4 := by
  cases taken
  · exact .inl rfl
  · exact .inr rfl

/-- A key skip that leaves no record has tested its key. -/
theorem withKey_eq_of_running {s : State} {k : Byte} {effect : Bool → State}
    (hrun : (s.withKey k effect).FAULT = none) :
    s.withKey k effect = effect (s.KEY.getLsbD k.toNat) := by
  by_cases hbad : 0xF < k.toNat
  · rw [withKey_bad s effect hbad] at hrun
    exact nomatch hrun
  · exact withKey_good s effect (by omega)

/-- A call that leaves no record has jumped. -/
theorem pc_of_pushJump {s : State} {v target info : Word} (hrun : (s.pushJump v target info).FAULT = none) :
    (s.pushJump v target info).pc = target := by
  by_cases hfree : s.SP.val < 16
  · rw [pushJump_free s v target info hfree]
    rfl
  · rw [pushJump_full s v target info (by omega)] at hrun
    exact nomatch hrun

/-- A return that leaves no record has popped the top entry. -/
theorem pc_of_popJump {s : State} (hrun : s.popJump.FAULT = none) :
    ∃ k : Fin 16, s.SP.val = k.val + 1 ∧ s.popJump.pc = s.S[k] := by
  by_cases hsome : 0 < s.SP.val
  · rw [popJump_some s hsome]
    exact ⟨⟨s.SP.val - 1, by omega⟩, by dsimp only; omega, rfl⟩
  · rw [popJump_empty s (by omega)] at hrun
    exact nomatch hrun

/-- Settles O21: an error leaves `pc`; an instruction that leaves no record has jumped, skipped, held or advanced. -/
theorem programCounterMovesAsListed : Obligations.ProgramCounterMovesAsListed := by
  intro i s t hrun hexec
  refine ⟨fun herror => ?_, fun hnone => ?_⟩
  · obtain ⟨f, hf⟩ := Option.ne_none_iff_exists'.1 herror
    obtain ⟨error, info, -, rfl⟩ := exec_error hexec hrun hf
    rfl
  · cases i with
    | jp nnn => cases hexec; exact immAddr_toNat nnn
    | call nnn => cases hexec; exact (congrArg BitVec.toNat (pc_of_pushJump hnone)).trans (immAddr_toNat nnn)
    | jpV0 nnn => cases hexec; exact offsetTarget_toNat _ nnn
    | ret => cases hexec; exact pc_of_popJump hnone
    | ldVxK x =>
      cases hexec
      dsimp only
      split
      · exact .inr ⟨rfl, rfl⟩
      · exact .inl ⟨rfl, rfl⟩
    | seImm | sneImm | seReg | sneReg => cases hexec; exact (skipIf_pc_cases s _).imp_right (.intro rfl)
    | skp | sknp =>
      cases hexec
      rw [withKey_eq_of_running hnone]
      exact (skipIf_pc_cases s _).imp_right (.intro rfl)
    | drw | ldBVx | ldMiVx | ldVxMi => cases hexec; rw [accessing_eq_of_running hnone]; simp
    | _ => cases hexec; exact .inl rfl

/-! ## What is not read: the operations with a check, in two states that agree on what the check reads -/

section Related

variable {R : State → State → Prop} {s s' : State} (hraise : ∀ error info, R (s.raise error info) (s'.raise error info))

include hraise

theorem accessing_related {t t' : State} (count : Nat) (hI : s'.I = s.I) (ht : R t t') :
    R (s.accessing count t) (s'.accessing count t') := by
  rw [State.accessing, State.accessing, hI]
  split
  · exact hraise _ _
  · exact ht

theorem withKey_related {effect effect' : Bool → State} (k : Byte) (hKEY : s'.KEY = s.KEY)
    (heffect : ∀ pressed, R (effect pressed) (effect' pressed)) : R (s.withKey k effect) (s'.withKey k effect') := by
  rw [State.withKey, State.withKey, hKEY]
  split
  · exact hraise _ _
  · exact heffect _

end Related

/-- The Draw Engine reads `I`, memory and the framebuffer. -/
theorem drawSprite_congr {s s' : State} (hI : s'.I = s.I) (hmem : s'.mem = s.mem) (hFB : s'.FB = s.FB) :
    s'.drawSprite = s.drawSprite := by
  funext vx vy n
  rw [State.drawSprite, State.drawSprite, hI, hmem, hFB]

/-- `Fx65` reads `I` and memory, and keeps the registers above `x`. -/
theorem loadRegsUpTo_congr {s s' : State} (x : Reg) (hV : s'.V = s.V) (hI : s'.I = s.I) (hmem : s'.mem = s.mem) :
    ∃ loaded, s.loadRegsUpTo x = { s with V := loaded } ∧ s'.loadRegsUpTo x = { s' with V := loaded } :=
  ⟨_, rfl, by simp only [State.loadRegsUpTo, reg_eq, hV, hI, hmem]⟩

/-- Two states that agree but for `ST`. -/
def SameButST (s t : State) : Prop := { t with ST := s.ST } = s

/-- Settles O22: no operation has `ST` among what it reads, and the one that writes it writes the same value. -/
theorem soundTimerIsNeverRead : Obligations.SoundTimerIsNeverRead := by
  intro i s v
  have hraise : ∀ error info, SameButST (s.raise error info) (({ s with ST := v } : State).raise error info) :=
    fun _ _ => rfl
  suffices h : ∃ t u, exec i s = .next t ∧ exec i { s with ST := v } = .next u ∧ SameButST t u from h
  cases i with
  | ret =>
    refine ⟨_, _, rfl, rfl, ?_⟩
    simp only [State.popJump]
    split <;> rfl
  | call nnn =>
    refine ⟨_, _, rfl, rfl, ?_⟩
    simp only [State.pushJump]
    split <;> rfl
  | drw x y n =>
    refine ⟨_, _, rfl, rfl, accessing_related hraise n rfl ?_⟩
    rw [drawSprite_congr (s := s) (s' := { s with ST := v }) rfl rfl rfl]
    rfl
  | ldVxMi x =>
    obtain ⟨loaded, hs, hs'⟩ := loadRegsUpTo_congr (s := s) (s' := { s with ST := v }) x rfl rfl rfl
    refine ⟨_, _, rfl, rfl, accessing_related hraise _ rfl ?_⟩
    rw [hs, hs']
    rfl
  | ldBVx | ldMiVx => exact ⟨_, _, rfl, rfl, accessing_related hraise _ rfl rfl⟩
  | skp | sknp => exact ⟨_, _, rfl, rfl, withKey_related hraise _ rfl fun _ => rfl⟩
  | ldVxK x =>
    refine ⟨_, _, rfl, rfl, ?_⟩
    dsimp only
    split <;> rfl
  | _ => exact ⟨_, _, rfl, rfl, rfl⟩

theorem set_agree {a b : Vector Word 16} {j k : Fin 16} (v : Word) (hab : j ≠ k → a[j] = b[j]) :
    (a.set k v)[j] = (b.set k v)[j] := by
  simp only [Fin.getElem_fin, Vector.getElem_set]
  exact if_ctx_congr Iff.rfl (fun _ => rfl) fun hne => hab fun hjk => hne (congrArg Fin.val hjk.symm)

/-- Two states that agree but for stack entries at or above `SP`. -/
def SameBelowSP (s t : State) : Prop := { t with S := s.S } = s ∧ ∀ j : Fin 16, j.val < s.SP.val → t.S[j] = s.S[j]

/-- Settles O23: a return reads the entry below `SP`, and a call writes the entry at `SP`. -/
theorem freeStackEntriesAreUnobservable : Obligations.FreeStackEntriesAreUnobservable := by
  intro i s stack hagree
  have hraise : ∀ error info, SameBelowSP (s.raise error info) (({ s with S := stack } : State).raise error info) :=
    fun _ _ => ⟨rfl, hagree⟩
  suffices h : ∃ t u, exec i s = .next t ∧ exec i { s with S := stack } = .next u ∧ SameBelowSP t u from h
  cases i with
  | ret =>
    by_cases hempty : s.SP.val = 0
    · exact ⟨_, _, exec_ret_empty s hempty, exec_ret_empty _ hempty, hraise _ _⟩
    · obtain ⟨k, hk⟩ : ∃ k : Fin 16, s.SP.val = k.val + 1 := ⟨⟨s.SP.val - 1, by omega⟩, by dsimp only; omega⟩
      have htop : stack[k] = s.S[k] := hagree k (by omega)
      refine ⟨_, _, exec_ret_pops hk, exec_ret_pops (s := { s with S := stack }) hk, ?_, fun j hj => hagree j ?_⟩
      · simp only [htop, State.jump]
      · have hlt : j.val < k.val := hj
        omega
  | call nnn =>
    by_cases hfull : s.SP.val = 16
    · exact ⟨_, _, exec_call_full s nnn hfull, exec_call_full _ nnn hfull, hraise _ _⟩
    · obtain ⟨k, hk⟩ : ∃ k : Fin 16, s.SP.val = k.val := ⟨⟨s.SP.val, by omega⟩, rfl⟩
      refine ⟨_, _, exec_call_pushes nnn hk, exec_call_pushes (s := { s with S := stack }) nnn hk, rfl, fun j hj => ?_⟩
      have hlt : j.val < k.val + 1 := hj
      refine set_agree _ fun hjk => hagree j ?_
      have hne : j.val ≠ k.val := Fin.val_ne_of_ne hjk
      omega
  | drw x y n =>
    refine ⟨_, _, rfl, rfl, accessing_related hraise n rfl ?_⟩
    rw [drawSprite_congr (s := s) (s' := { s with S := stack }) rfl rfl rfl]
    exact ⟨rfl, hagree⟩
  | ldVxMi x =>
    obtain ⟨loaded, hs, hs'⟩ := loadRegsUpTo_congr (s := s) (s' := { s with S := stack }) x rfl rfl rfl
    refine ⟨_, _, rfl, rfl, accessing_related hraise _ rfl ?_⟩
    rw [hs, hs']
    exact ⟨rfl, hagree⟩
  | ldBVx | ldMiVx => exact ⟨_, _, rfl, rfl, accessing_related hraise _ rfl ⟨rfl, hagree⟩⟩
  | skp | sknp => exact ⟨_, _, rfl, rfl, withKey_related hraise _ rfl fun _ => ⟨rfl, hagree⟩⟩
  | ldVxK x =>
    refine ⟨_, _, rfl, rfl, ?_⟩
    dsimp only
    split <;> exact ⟨rfl, hagree⟩
  | _ => exact ⟨_, _, rfl, rfl, rfl, hagree⟩

/-- Settles O24: a skip reads registers and, for the two with a check, keys. -/
theorem skippedWordIsNotRead : Obligations.SkippedWordIsNotRead := by
  intro i s m hskip
  cases i with
  | seImm | sneImm | seReg | sneReg => exact ⟨_, rfl, rfl⟩
  | skp | sknp =>
    refine ⟨_, rfl, congrArg Host.Outcome.next ?_⟩
    exact withKey_related (R := fun t u => u = { t with mem := m }) (fun _ _ => rfl) _ rfl fun _ => rfl
  | _ => exact nomatch hskip

end Sys2Proof.Proofs.Effects
end

section
/-! Why an error is raised: the six causes of 60_exceptions.md R251, with the `info` each records. -/

namespace Sys2Proof.Proofs.Causes

open Sys2Proof.Machine Sys2Proof.Safety Sys2Proof.Laws

/-- What holds of the state `s` at the word `w` when a cycle records an error of this kind with this `info`. -/
def Caused (s : State) (w info : Word) : ErrorKind → Prop
  | .unknownInstruction => s.pc.toNat ≤ 0xFFE ∧ decode w = none ∧ info = w
  | .fetch => 0xFFE < s.pc.toNat ∧ info = s.pc
  | .stackOverflow => ∃ nnn, decode w = some (.call nnn) ∧ s.SP.val = 16 ∧ info.toNat = nnn.toNat
  | .stackUnderflow => decode w = some .ret ∧ s.SP.val = 0 ∧ info = 0
  | .memory => ∃ (x y : Reg) (n count : Nat),
      ((decode w = some (.drw x y n) ∧ count = n ∧ 0 < n) ∨ (decode w = some (.ldBVx x) ∧ count = 3) ∨
        (decode w = some (.ldMiVx x) ∧ count = x.val + 1) ∨ (decode w = some (.ldVxMi x) ∧ count = x.val + 1)) ∧
      0xFFF < s.I.toNat + (count - 1) ∧ info.toNat = max s.I.toNat 0x1000
  | .keyIndex => ∃ x : Reg, (decode w = some (.skp x) ∨ decode w = some (.sknp x)) ∧
      0xF < (s.reg x).toNat ∧ info.toNat = (s.reg x).toNat

section Checks

variable {s t : State} {w : Word} {f : FaultRecord}

/-- An access records an error only for a range past the end of memory. -/
theorem accessing_error_caused {x y : Reg} {n count : Nat} (hf : (s.accessing count t).FAULT = some f)
    (hrun : s.FAULT = none) (ht : t.FAULT = s.FAULT)
    (hdecode : 0 < count →
      (decode w = some (.drw x y n) ∧ count = n ∧ 0 < n) ∨ (decode w = some (.ldBVx x) ∧ count = 3) ∨
        (decode w = some (.ldMiVx x) ∧ count = x.val + 1) ∨ (decode w = some (.ldVxMi x) ∧ count = x.val + 1)) :
    Caused s w f.info f.error := by
  obtain ⟨-, heq⟩ | ⟨hpos, hout, heq⟩ := accessing_cases s count t <;> rw [heq] at hf
  · exact nomatch (ht.trans hrun).symm.trans hf
  · cases hf
    have hI : s.I.toNat < 65536 := s.I.isLt
    have hinfo : max s.I.toNat 4096 % 65536 = max s.I.toNat 4096 := Nat.mod_eq_of_lt (by omega)
    exact ⟨x, y, n, count, hdecode hpos, by omega, hinfo⟩

/-- A key skip records an error only for a number above `0xF`. -/
theorem withKey_error_caused {x : Reg} {effect : Bool → State} (hf : (s.withKey (s.reg x) effect).FAULT = some f)
    (heffect : ∀ pressed, (effect pressed).FAULT = none)
    (hdecode : decode w = some (.skp x) ∨ decode w = some (.sknp x)) : Caused s w f.info f.error := by
  by_cases hbad : 0xF < (s.reg x).toNat
  · rw [withKey_bad s effect hbad] at hf
    cases hf
    exact ⟨x, hdecode, hbad, zext_byte_toNat (s.reg x)⟩
  · rw [withKey_good s effect (by omega)] at hf
    exact nomatch (heffect _).symm.trans hf

theorem pushJump_error_caused {v : Word} {nnn : Addr} (hf : (s.pushJump v (immAddr nnn) (immAddr nnn)).FAULT = some f)
    (hrun : s.FAULT = none) (hdecode : decode w = some (.call nnn)) : Caused s w f.info f.error := by
  by_cases hfree : s.SP.val < 16
  · rw [pushJump_free s v _ _ hfree] at hf
    exact nomatch hrun.symm.trans hf
  · have hfull : s.SP.val = 16 := by omega
    rw [pushJump_full s v _ _ hfull] at hf
    cases hf
    exact ⟨nnn, hdecode, hfull, immAddr_toNat nnn⟩

theorem popJump_error_caused (hf : s.popJump.FAULT = some f) (hrun : s.FAULT = none) (hdecode : decode w = some .ret) :
    Caused s w f.info f.error := by
  by_cases hsome : 0 < s.SP.val
  · rw [popJump_some s hsome] at hf
    exact nomatch hrun.symm.trans hf
  · have hempty : s.SP.val = 0 := by omega
    rw [popJump_empty s hempty] at hf
    cases hf
    exact ⟨hdecode, hempty, rfl⟩

end Checks

/-- The eight instructions with a check raise for its reason; no other writes the record. -/
theorem exec_error_caused {i : Instr} {s t : State} {w : Word} {f : FaultRecord} (hdecode : decode w = some i)
    (hrun : s.FAULT = none) (hexec : exec i s = .next t) (hf : t.FAULT = some f) : Caused s w f.info f.error := by
  cases i with
  | call nnn => cases hexec; exact pushJump_error_caused hf hrun hdecode
  | ret => cases hexec; exact popJump_error_caused hf hrun hdecode
  | drw x y n => cases hexec; exact accessing_error_caused hf hrun rfl fun hpos => .inl ⟨hdecode, rfl, hpos⟩
  | ldBVx x =>
    cases hexec
    exact accessing_error_caused (y := 0) (n := 0) hf hrun rfl fun _ => .inr (.inl ⟨hdecode, rfl⟩)
  | ldMiVx x =>
    cases hexec
    exact accessing_error_caused (y := 0) (n := 0) hf hrun rfl fun _ => .inr (.inr (.inl ⟨hdecode, rfl⟩))
  | ldVxMi x =>
    cases hexec
    have heffect : (s.loadRegsUpTo x).advance.FAULT = s.FAULT := by rw [advance_FAULT, loadRegsUpTo_FAULT]
    exact accessing_error_caused (y := 0) (n := 0) hf hrun heffect fun _ => .inr (.inr (.inr ⟨hdecode, rfl⟩))
  | skp x => cases hexec; exact withKey_error_caused hf (fun _ => hrun) (.inl hdecode)
  | sknp x => cases hexec; exact withKey_error_caused hf (fun _ => hrun) (.inr hdecode)
  | ldVxK x => cases hexec; split at hf <;> exact nomatch hrun.symm.trans hf
  | _ => cases hexec; exact nomatch hrun.symm.trans hf

/-- Every record a cycle leaves. -/
theorem cycle_error_caused {s t : State} {f : FaultRecord} (hcycle : cycle s = .next t) (hf : t.FAULT = some f) :
    Caused s s.fetchWord f.info f.error := by
  obtain ⟨r, -, hc⟩ | ⟨-, hpc, hc⟩ | ⟨-, hpc, hdecode, hc⟩ | ⟨i, hrun, -, hdecode, hc⟩ := cycle_cases s <;>
    rw [hc] at hcycle
  · cases hcycle
  · cases hcycle
    cases hf
    exact ⟨hpc, rfl⟩
  · cases hcycle
    cases hf
    exact ⟨hpc, hdecode, rfl⟩
  · exact exec_error_caused (s := (s.tickBy s.TICKS).fetched) hdecode hrun hcycle hf

/-- Settles O13: the host's moves come before the cycle, and each kind of error has its cause in the state they
leave. -/
theorem errorCausesAreTheSixListed : Obligations.ErrorCausesAreTheSixListed := by
  refine ⟨⟨rfl, rfl, rfl, rfl, rfl, rfl⟩, fun s t f hstep hf => ?_⟩
  have hcaused : Caused s.receive s.receive.fetchWord f.info f.error := cycle_error_caused hstep hf
  cases herror : f.error <;> rw [herror] at hcaused <;> exact hcaused

end Sys2Proof.Proofs.Causes
end

section
/-! Several steps, or an instruction after another: what one of them writes is what the next one reads or keeps. -/

namespace Sys2Proof.Proofs.Sequences

open Sys2Proof.Machine Sys2Proof.Safety Sys2Proof.Laws
open Sys2Proof.Proofs.Flow Sys2Proof.Proofs.IndexMemory Sys2Proof.Proofs.KeysTimers Sys2Proof.Proofs.HostMoves
open Sys2Proof.Proofs.Codec (decodeOfEncodeIsIdentity)

/-! ## Frames of runs -/

theorem unchanged_trans {p : Part} {s t u : State} (hst : Unchanged p s t) (htu : Unchanged p t u) :
    Unchanged p s u := by
  cases p <;> simp_all [Unchanged]

theorem frameExcept_trans {written : Reg → Prop} {parts : List Part} {s t u : State}
    (hst : FrameExcept written parts s t) (htu : FrameExcept written parts t u) : FrameExcept written parts s u := by
  obtain ⟨hregs, hparts⟩ := hst
  obtain ⟨hregs', hparts'⟩ := htu
  exact ⟨fun r hr => (hregs' r hr).trans (hregs r hr), fun p hp => unchanged_trans (hparts p hp) (hparts' p hp)⟩

/-! ## Two instructions -/

/-- Settles O34: the call leaves `pc + 2` on top of the stack, and the return pops it. -/
theorem callThenReturnComesBack : Obligations.CallThenReturnComesBack := by
  intro nnn s hfree
  obtain ⟨-, -, hcall⟩ := callPushesOrOverflows
  obtain ⟨-, -, hret⟩ := returnPopsOrUnderflows
  obtain ⟨t, hexec, hSP, htop, hbelow, -, hframe⟩ := hcall nnn s ⟨s.SP.val, hfree⟩ rfl
  obtain ⟨u, hexec', hSP', hpc, hkept, hframe'⟩ := hret t ⟨s.SP.val, hfree⟩ hSP
  refine ⟨t, hexec, u, hexec', hpc.trans htop, Fin.ext hSP', fun j hj => ?_, frameExcept_trans hframe hframe'⟩
  exact (hkept j).trans (hbelow j fun hjk => hj.ne (congrArg Fin.val hjk))

/-- Settles O48: the load reads the bytes that the store has left at the same `I`. -/
theorem storeThenLoadRestoresRegisters : Obligations.StoreThenLoadRestoresRegisters := by
  intro x s t between hwf hin hexec
  obtain ⟨-, -, hstore⟩ := registersAreStored
  obtain ⟨-, -, hload⟩ := registersAreLoaded
  obtain ⟨t', hexec', hstored, -, -, hframe⟩ := hstore x s hwf hin
  obtain rfl : t' = t := Host.Outcome.next.inj (hexec'.symm.trans hexec)
  have hI : t'.I = s.I := hframe.2 .index (by decide)
  obtain ⟨u, hexecu, hloaded, -, -⟩ := hload x { t' with V := between } (by simpa [hI] using hin)
  refine ⟨u, hexecu, fun j hj => ?_⟩
  rw [hloaded j hj, ← hstored j hj, hI]

/-! ## A word that is in memory when the next step fetches -/

/-- A step with no reset asked for executes the word at `pc`. -/
theorem step_of_fetchWord {s : State} {i : Instr} {w : Word} (hreset : s.nextInput.reset = none) (hrun : s.FAULT = none)
    (hpc : s.pc.toNat ≤ 0xFFE) (hw : s.fetchWord = w) (hdecode : decode w = some i) :
    step s = exec i (executing s.receive w) := by
  have hstep := stepRunsDecodedInstruction s i
  rw [receive_of_noReset hreset] at hstep ⊢
  rw [← hw] at hdecode ⊢
  exact hstep hrun hpc hdecode

/-- Settles O25: after the store `pc` lies in the stored range, so the fetch reads the two registers. -/
theorem storedWordIsFetchedNext : Obligations.StoredWordIsFetchedNext := by
  intro s t x j j' i hwf hrun hin hexec hj' hx hpc hreset hdecode
  obtain ⟨-, -, hstore⟩ := registersAreStored
  obtain ⟨t', hexec', hstored, -, -, -, hparts⟩ := hstore x s hwf hin
  obtain rfl : t' = t := Host.Outcome.next.inj (hexec'.symm.trans hexec)
  have hfault : t'.FAULT = none := (hparts .faultRecord (by decide)).trans hrun
  have hxj : j'.val ≤ x.val := hx
  have hhigh : t'.mem.read t'.pc.toNat = s.reg j := by
    rw [hpc]
    exact hstored j (Fin.le_def.2 (by omega))
  have hlow : t'.mem.read (t'.pc.toNat + 1) = s.reg j' := by
    rw [hpc, Nat.add_assoc, ← hj']
    exact hstored j' hx
  exact step_of_fetchWord hreset hfault (by omega) (by rw [State.fetchWord, hhigh, hlow]) hdecode

section Placing

variable (s : State) (w : Word)

theorem ableToFetch_pc_le : s.ableToFetch.pc.toNat ≤ 0xFFE := by
  simp only [State.ableToFetch]
  split
  · decide
  · omega

theorem ableToFetch_noReset : s.ableToFetch.nextInput.reset = none := by
  cases hinputs : s.inputs <;> simp [State.nextInput, State.ableToFetch, hinputs, HostInput.free]

theorem fetchWord_placeWord (hwf : s.mem.wf = true) : (s.placeWord w).fetchWord = w := by
  obtain ⟨hhigh, hlow⟩ := read_storeWord hwf (ableToFetch_pc_le s) w
  exact (congrArg₂ wordOfBytes hhigh hlow).trans (wordOfBytes_high_low w)

end Placing

/-- Settles O27: the placed word is read back, and it decodes to the instruction it encodes. -/
theorem placedInstructionRuns : Obligations.PlacedInstructionRuns := by
  intro s i hwf hi
  have hcut : BitVec.ofNat 16 ((encode i).toNat % 2 ^ 16) = encode i := by
    rw [Nat.mod_eq_of_lt (encode i).isLt, BitVec.ofNat_toNat, BitVec.setWidth_eq]
  have hreset : (s.placeWord (encode i)).nextInput.reset = none := ableToFetch_noReset s
  have hstep := step_of_fetchWord hreset rfl (ableToFetch_pc_le s) (fetchWord_placeWord s (encode i) hwf)
    (decodeOfEncodeIsIdentity i hi)
  rw [State.withFetchWord, hcut]
  rw [receive_of_noReset hreset] at hstep
  exact ⟨_, hstep, rfl, fun _ => rfl, rfl, rfl, rfl, rfl⟩

/-! ## An instruction that leaves the core where it is -/

theorem nextInput_of_forall {P : HostInput → Prop} {s : State} (hinputs : ∀ inp ∈ s.inputs, P inp)
    (hfree : P (HostInput.free s.cycles)) : P s.nextInput := by
  cases h : s.inputs with
  | nil => simpa [State.nextInput, h] using hfree
  | cons inp rest =>
    rw [nextInput_of_cons h]
    exact hinputs inp (by simp [h])

/-- With no reset to come, the core is at a word that decodes to `i`. -/
structure Fetches (i : Instr) (s : State) : Prop where
  running : s.FAULT = none
  fetchable : s.pc.toNat ≤ 0xFFE
  decodes : decode s.fetchWord = some i
  noReset : NoReset s

section Repeating

variable {i : Instr} {s t : State}

theorem Fetches.next_reset (h : Fetches i s) : s.nextInput.reset = none :=
  nextInput_of_forall (P := fun inp => inp.reset = none) h.noReset rfl

theorem Fetches.step_eq (h : Fetches i s) : step s = exec i (executing s.receive s.fetchWord) :=
  step_of_fetchWord h.next_reset h.running h.fetchable rfl h.decodes

/-- The core is still there when a step has kept `pc`, memory and the record. -/
theorem Fetches.of_frame {parts : List Part} (h : Fetches i s) (hframe : FrameExcept noReg parts s t)
    (hpc : t.pc = s.pc) (hinputs : t.inputs = s.inputs.tail) (hmem : .memory ∉ parts) (hfault : .faultRecord ∉ parts) :
    Fetches i t := by
  obtain ⟨-, hparts⟩ := hframe
  have hread : ∀ a, t.mem.read a = s.mem.read a := hparts .memory hmem
  have hword : t.fetchWord = s.fetchWord := by rw [State.fetchWord, State.fetchWord, hpc, hread, hread]
  refine ⟨(hparts .faultRecord hfault).trans h.running, hpc ▸ h.fetchable, hword ▸ h.decodes, fun inp hinp => ?_⟩
  rw [hinputs] at hinp
  exact h.noReset inp (List.mem_of_mem_tail hinp)

/-- The host's moves without a reset, the tick and the fetch. -/
theorem frameExcept_executing (hreset : s.nextInput.reset = none) (w : Word) :
    FrameExcept noReg [.delayTimer, .soundTimer, .clockReference, .opcode, .keyFlags, .hostInputs] s
      (executing s.receive w) := by
  rw [receive_of_noReset hreset]
  refine ⟨fun _ _ => rfl, fun p hp => ?_⟩
  have hsame : Unchanged p s s := unchanged_refl p s
  cases p with
  | delayTimer | soundTimer | clockReference | opcode | keyFlags | hostInputs => simp at hp
  | _ => exact hsame

/-- One jump of a jump to itself. -/
theorem step_jp_self {nnn : Addr} (h : Fetches (.jp nnn) s) (hself : nnn.toNat = s.pc.toNat) :
    ∃ t, step s = .next t ∧ Fetches (.jp nnn) t ∧ t.pc = s.pc ∧
      FrameExcept noReg [.delayTimer, .soundTimer, .clockReference, .opcode, .keyFlags, .hostInputs] s t := by
  have htarget : immAddr nnn = s.pc := BitVec.eq_of_toNat_eq ((immAddr_toNat nnn).trans hself)
  have hframe := (frameExcept_jump (immAddr nnn)).2 (frameExcept_executing h.next_reset s.fetchWord)
  exact ⟨_, h.step_eq, h.of_frame hframe htarget rfl (by decide) (by decide), htarget, hframe⟩

end Repeating

/-- Settles O26: by induction on the number of steps, each of which leaves the core at the same jump. -/
theorem jumpToItselfRepeats : Obligations.JumpToItselfRepeats := by
  intro n
  induction n with
  | zero => exact fun s nnn _ _ _ _ _ => ⟨s, run_zero core s, rfl, frameExcept_refl noReg _ s⟩
  | succ n ih =>
    intro s nnn hrun hpc hdecode hself hreset
    obtain ⟨t, hstep, ⟨hrun', hpc', hdecode', hreset'⟩, hsame, hframe⟩ :=
      step_jp_self ⟨hrun, hpc, hdecode, hreset⟩ hself
    obtain ⟨u, hrunu, hpcu, hframeu⟩ := ih t nnn hrun' hpc' hdecode' (hsame ▸ hself) hreset'
    exact ⟨u, (run_next n hstep).trans hrunu, hpcu.trans hsame, frameExcept_trans hframe hframeu⟩

/-! ## A wait that no press ends (44_keys_timers.md R224) -/

section Waiting

variable {s : State} {x : Reg}

/-- The host's moves without a reset and without a key write. -/
theorem receive_of_quiet (hreset : s.nextInput.reset = none) (hkeys : s.nextInput.keys = none) :
    s.receive = { s with
      TICKS := s.nextInput.ticks, RNG := s.nextInput.rng, inputs := s.inputs.tail, cycles := s.cycles + 1 } := by
  rw [receive_of_noReset hreset, hkeys, Option.getD_none]

/-- The host's moves, the tick, the fetch and the hold. -/
theorem frameExcept_holding (hreset : s.nextInput.reset = none) (hkeys : s.nextInput.keys = none) (w : Word) :
    FrameExcept noReg [.delayTimer, .soundTimer, .clockReference, .opcode, .keyWait, .hostInputs] s
      (executing s.receive w).holdForKey := by
  rw [receive_of_quiet hreset hkeys]
  refine ⟨fun _ _ => rfl, fun p hp => ?_⟩
  have hsame : Unchanged p s s := unchanged_refl p s
  cases p with
  | delayTimer | soundTimer | clockReference | opcode | keyWait | hostInputs => simp at hp
  | _ => exact hsame

/-- One cycle of a wait without a press: every key down is in the snapshot, or there is no snapshot yet. -/
theorem step_ldVxK_holds (h : Fetches (.ldVxK x) s) (hquiet : NoKeyWrite s)
    (hheld : s.WAIT = true → ∀ k : Fin 16, s.KEY.getLsbD k = true → s.KSNAP.getLsbD k = true) :
    ∃ t, step s = .next t ∧ Fetches (.ldVxK x) t ∧ NoKeyWrite t ∧ t.WAIT = true ∧ t.pc = s.pc ∧ t.KSNAP = s.KEY ∧
      FrameExcept noReg [.delayTimer, .soundTimer, .clockReference, .opcode, .keyWait, .hostInputs] s t := by
  have hkeys : s.nextInput.keys = none := nextInput_of_forall (P := fun inp => inp.keys = none) hquiet rfl
  have hframe := frameExcept_holding h.next_reset hkeys s.fetchWord
  have hstep := h.step_eq
  rw [receive_of_quiet h.next_reset hkeys] at hframe hstep
  have hhold := hstep.trans (exec_ldVxK_hold _ x fun hwait => lowestKey_newKeys_eq_none_iff.2 (hheld hwait))
  exact ⟨_, hhold, h.of_frame hframe rfl rfl (by decide) (by decide),
    fun inp hinp => hquiet inp (List.mem_of_mem_tail hinp), rfl, rfl, rfl, hframe⟩

end Waiting

/-- Settles O57: by induction on the number of further steps; after a hold the snapshot is the keys themselves. -/
theorem waitLastsUntilAPress : Obligations.WaitLastsUntilAPress := by
  intro n
  induction n with
  | zero =>
    intro x s hrun hpc hdecode hreset hquiet hheld
    obtain ⟨t, hstep, -, -, hwait, hsame, hsnap, hframe⟩ := step_ldVxK_holds ⟨hrun, hpc, hdecode, hreset⟩ hquiet hheld
    exact ⟨t, (run_next 0 hstep).trans (run_zero core t), hwait, hsame, hsnap, hframe⟩
  | succ n ih =>
    intro x s hrun hpc hdecode hreset hquiet hheld
    obtain ⟨t, hstep, ⟨hrun', hpc', hdecode', hreset'⟩, hquiet', -, hsame, hsnap, hframe⟩ :=
      step_ldVxK_holds ⟨hrun, hpc, hdecode, hreset⟩ hquiet hheld
    have hKEY : t.KEY = s.KEY := hframe.2 .keyFlags (by decide)
    obtain ⟨u, hrunu, hwaitu, hpcu, hsnapu, hframeu⟩ :=
      ih x t hrun' hpc' hdecode' hreset' hquiet' fun _ k hk => by rwa [hsnap, ← hKEY]
    exact ⟨u, (run_next (n + 1) hstep).trans hrunu, hwaitu, hpcu.trans hsame, hsnapu.trans hKEY,
      frameExcept_trans hframe hframeu⟩

end Sys2Proof.Proofs.Sequences
end
